-- ==== Sys2Proof/Word.lean ====
section
/-! DEFINITION. The word types of the codec block (R7, R14). Every value is unsigned; lengths, offsets and counts
are natural numbers (R17), so they are no bit vectors. -/

namespace Sys2Proof

/-- The smallest addressable unit (R60) and the width of the kind field (R7). -/
abbrev Byte := BitVec 8

/-- A CRC or checksum value (R7, R150). -/
abbrev Crc := BitVec 32

/-- A sequenceID, nextSequenceID or requestedID (R7). -/
abbrev Id := BitVec 64

/-- The command code, the width of CMD (R32, R80). -/
abbrev Code := BitVec 3

end Sys2Proof
end

