-- ==== Sys2Proof/Syntax.lean ====
section
/-! DEFINITION. The instructions: one constructor per row of spec/opcode_table.json. The first eight are the command codes
of CMD (R80, R82); the other seven are the frame kinds, the frame decoder's opcode map (R86, R88). Command operands are
registers (R81), so only the unknown kind carries data: the kind byte itself. -/

namespace Sys2Proof

inductive Instr where
  /-- CMD = 0: CRC-32 of INBUF[0 .. INLEN) (R155) -/
  | crc32
  /-- CMD = 1: build a data/file frame (R111) -/
  | encodeData
  /-- CMD = 2: build a control frame (R116) -/
  | encodeControl
  /-- CMD = 3: parse a received frame (R121) -/
  | decode
  /-- CMD = 4: check a received frame's checksum (R159) -/
  | validate
  /-- CMD = 5, reserved (R82) -/
  | rsv5
  /-- CMD = 6, reserved (R82) -/
  | rsv6
  /-- CMD = 7, reserved (R82) -/
  | rsv7
  /-- kind byte 0x00, format DF (R83) -/
  | frameData
  /-- kind byte 0x01, format CF-R (R84) -/
  | frameRequest
  /-- kind byte 0x02, format DF (R83) -/
  | frameFile
  /-- kind byte 0xC8, format CF-R (R84) -/
  | frameSuccess
  /-- kind byte 0xFE, format CF-H (R85) -/
  | frameHandshakeAck
  /-- kind byte 0xFF, format CF-H (R85) -/
  | frameHandshakeRequest
  /-- any of the other 250 kind bytes (R88) -/
  | frameUnknown (kind : Byte)
  deriving DecidableEq, Repr

end Sys2Proof
end

