-- ==== Sys2Proof/WellFormed.lean ====
section
/-! DEFINITION. The check of an instruction: an unknown-kind row names none of the six kind codes (R86, R88). Every other
constructor is well formed as it stands. -/

namespace Sys2Proof

/-- The six kind codes of R86. -/
def knownKinds : List Byte := [0x00#8, 0x01#8, 0x02#8, 0xC8#8, 0xFE#8, 0xFF#8]

/-- R88: the kind byte of an unknown frame is none of the six codes. -/
def Instr.wf : Instr → Bool
  | .crc32 => true
  | .encodeData => true
  | .encodeControl => true
  | .decode => true
  | .validate => true
  | .rsv5 => true
  | .rsv6 => true
  | .rsv7 => true
  | .frameData => true
  | .frameRequest => true
  | .frameFile => true
  | .frameSuccess => true
  | .frameHandshakeAck => true
  | .frameHandshakeRequest => true
  | .frameUnknown k => !(knownKinds.contains k)

end Sys2Proof
end

