-- ==== Sys2Proof/Decode.lean ====
section
/-! DEFINITION. The two opcode maps and the encoder. A command is a 3-bit code written to CMD (R72, R80, R82); a frame kind is
the byte at offset 16 of a datagram (R86, R88). Which map a code is read in is fixed by where it stands, so the decoder
takes the map and the bytes; it is total, and it rejects by name. -/

namespace Sys2Proof

/-- Where a code stands: in the CMD register, or at offset 16 of a datagram. -/
inductive OpMap where
  | command
  | kind
  deriving DecidableEq, Repr

/-- Why the decoder rejects bytes. -/
inductive DecodeError where
  /-- there is no byte to read -/
  | noByte
  /-- the byte does not fit CMD's three bits (R32) -/
  | notACommandCode (b : Byte)
  deriving DecidableEq, Repr

/-- The class of a kind byte (R87, R88), which selects the frame format. -/
inductive KindClass where
  /-- DATA, FILE: format DF (R83) -/
  | dataFile
  /-- REQUEST, SUCCESS: format CF-R (R84) -/
  | controlId
  /-- HANDSHAKE_ACK, HANDSHAKE_REQUEST: format CF-H (R85) -/
  | handshake
  /-- every other byte (R88) -/
  | unknown
  deriving DecidableEq, Repr

/-- R87 and R88. -/
def kindClass (k : Byte) : KindClass :=
  if k = 0x00#8 ∨ k = 0x02#8 then .dataFile
  else if k = 0x01#8 ∨ k = 0xC8#8 then .controlId
  else if k = 0xFE#8 ∨ k = 0xFF#8 then .handshake
  else .unknown

/-- The command map (R80, R82). Every 3-bit code has a row. -/
def decodeCommand (c : Code) : Instr :=
  if c = 0#3 then .crc32
  else if c = 1#3 then .encodeData
  else if c = 2#3 then .encodeControl
  else if c = 3#3 then .decode
  else if c = 4#3 then .validate
  else if c = 5#3 then .rsv5
  else if c = 6#3 then .rsv6
  else .rsv7

/-- The kind map (R86, R88). Every byte has a row. -/
def decodeKind (k : Byte) : Instr :=
  if k = 0x00#8 then .frameData
  else if k = 0x01#8 then .frameRequest
  else if k = 0x02#8 then .frameFile
  else if k = 0xC8#8 then .frameSuccess
  else if k = 0xFE#8 then .frameHandshakeAck
  else if k = 0xFF#8 then .frameHandshakeRequest
  else .frameUnknown k

/-- The decoder: the instruction at the head of a byte list in one of the two maps, with the bytes after it. -/
def decode (m : OpMap) (bytes : List Byte) : Except DecodeError (Instr × List Byte) :=
  match bytes with
  | [] => .error .noByte
  | b :: rest =>
    match m with
    | .command => if b.toNat < 8 then .ok (decodeCommand (b.setWidth 3), rest) else .error (.notACommandCode b)
    | .kind => .ok (decodeKind b, rest)

/-- The encoder: the map an instruction's code stands in, and the code (R80, R82, R86, R88). -/
def encode : Instr → OpMap × Byte
  | .crc32 => (.command, 0x00#8)
  | .encodeData => (.command, 0x01#8)
  | .encodeControl => (.command, 0x02#8)
  | .decode => (.command, 0x03#8)
  | .validate => (.command, 0x04#8)
  | .rsv5 => (.command, 0x05#8)
  | .rsv6 => (.command, 0x06#8)
  | .rsv7 => (.command, 0x07#8)
  | .frameData => (.kind, 0x00#8)
  | .frameRequest => (.kind, 0x01#8)
  | .frameFile => (.kind, 0x02#8)
  | .frameSuccess => (.kind, 0xC8#8)
  | .frameHandshakeAck => (.kind, 0xFE#8)
  | .frameHandshakeRequest => (.kind, 0xFF#8)
  | .frameUnknown k => (.kind, k)

/-- The table's rows share their numbers: CMD = 0, 1, 2 and kind bytes 0, 1, 2 are the same bits. A number below 8 is read as
a command code, and any other number of a whole byte as a kind byte (log entry 6). -/
def tableMap (nbits w : Nat) : Option OpMap :=
  if w < 8 then some .command
  else if 8 ≤ nbits ∧ w < 256 then some .kind
  else none

/-- What the decoder reads from a row's bits, numbered as spec/opcode_table.json numbers them. -/
def decodeTableWord (nbits w : Nat) : Option Instr :=
  match tableMap nbits w with
  | none => none
  | some m =>
    match decode m [BitVec.ofNat 8 w] with
    | .ok (i, _) => some i
    | .error _ => none

/-- The CMD value under which the block runs an instruction: a command's own code, and DECODE for a frame kind, since the
kind map is DECODE's (R121). -/
def commandCode (i : Instr) : Code :=
  match encode i with
  | (.command, b) => b.setWidth 3
  | (.kind, _) => 3#3

end Sys2Proof
end

