-- ==== Sys2Proof/Config.lean ====
section
/-! DEFINITION. The configuration of a block (R8 to R13): what is fixed when the block instance is made. It is plain data,
carried in `State.cfg`, which no step changes (log entry 2), so that a claim about every state is a claim about every
configuration. -/

namespace Sys2Proof

/-- CTRL_LEN_POLICY (R11): how DECODE treats a control frame longer than its fields. -/
inductive LenPolicy where
  /-- the default: exactly 25 or 17 bytes -/
  | exact
  /-- 25 or 17 bytes are the minimum, trailing bytes are ignored -/
  | atLeast
  deriving DecidableEq, Repr

/-- CTRL_ZERO_POLICY (R12): how DECODE treats the two zero fields of a control frame. -/
inductive ZeroPolicy where
  /-- the default: they are not read -/
  | ignore
  /-- a non-zero value makes the frame malformed -/
  | requireZero
  deriving DecidableEq, Repr

/-- CRC_ALGO (R10, R150): the default algorithm, or any other one, of which nothing is known but that it is a total
function of the bytes (`Config.otherCrc`). -/
inductive CrcAlgo where
  | isoHdlc
  | other (n : Nat)
  deriving DecidableEq, Repr

/-- The block's parameters (R13). LEN_W is derived from BUF_BYTES (`Config.lenW`). -/
structure Config where
  /-- BUF_BYTES (R8): bytes in each of INBUF and OUTBUF -/
  bufBytes : Nat
  /-- CTRL_LEN_POLICY (R11) -/
  lenPolicy : LenPolicy
  /-- CTRL_ZERO_POLICY (R12) -/
  zeroPolicy : ZeroPolicy
  /-- CRC_ALGO (R10) -/
  crcAlgo : CrcAlgo
  deriving DecidableEq, Repr

/-- The defaults of R8, R10, R11 and R12. -/
def Config.default : Config :=
  { bufBytes := 65558, lenPolicy := .exact, zeroPolicy := .ignore, crcAlgo := .isoHdlc }

/-- R8: BUF_BYTES must be at least the longest control frame for every command to be usable. -/
def Config.wf (c : Config) : Bool := decide (25 ≤ c.bufBytes)

/-- LEN_W (R9): the least w with 2^w > BUF_BYTES. -/
def Config.lenW (c : Config) : Nat := if c.bufBytes = 0 then 0 else Nat.log2 c.bufBytes + 1

/-- A CRC_ALGO other than the default (R10, D4): uninterpreted, one per number, so that a claim about every
configuration holds for every total function of the bytes (log entry 4). -/
opaque Config.otherCrc : Nat → List Byte → Crc

end Sys2Proof
end

