-- ==== Sys2Proof/Machine/State.lean ====
section
/-! DEFINITION. The state of the codec block (R31), its fault and refusal reasons (R186, R187) and its state after reset
(R210, R213). ⊥, the spec's own "no value" (R18), is `none`; reading it is a fault the spec names (R56), log entry 1. -/

namespace Sys2Proof.Machine

/-- A buffer (R60): the bytes that hold a value, by address. Canonical form: addresses strictly rising. An unlisted address
holds ⊥ (R18), so no entry can equal what an unlisted address reads as. -/
abbrev Memory := List Host.Cell

/-- The request registers and bytes a command can read (R81), the names of what `unwrittenOperand` found ⊥. -/
inductive Operand where
  | cmd | seq | next | kind | reqid | inject | inlen
  | inbuf (addr : Nat)
  deriving DecidableEq, Repr

/-- The response registers and bytes the host can read (R40 to R52). -/
inductive ResponseReg where
  | busy | respValid | status | crc | crcOk | outlen
  | outbuf (addr : Nat)
  | dKind | dSeq | dNext | dLen | dChecksum | dReqid
  deriving DecidableEq, Repr

/-- The model faults. -/
inductive Fault where
  /-- UNWRITTEN_OPERAND (R56, R186): a completion read a request register or INBUF byte that is ⊥. Raised by the commands.
  Safe: the chip would compute with some value, the model stops. -/
  | unwrittenOperand (what : Operand)
  /-- UNWRITTEN_RESPONSE (R56, R186, R217): the host read a response register or OUTBUF byte that is ⊥, or read while
  RESP_VALID = 0. Raised by the host's `read` and `readOutbuf`. Safe: the chip returns some value, the model stops. -/
  | unwrittenResponse (what : ResponseReg)
  /-- The host wrote or read a buffer byte at an address that does not exist (R60). Raised by the host's `writeInbuf`,
  `read` and `readOutbuf`. Safe: the machine stops. -/
  | addressOutsideBuffer (addr : Nat)
  deriving DecidableEq, Repr

/-- Why a step has no meaning. -/
inductive Refusal where
  /-- An instruction that has no meaning yet. Raised by `exec` alone, by name. Safe: nothing is claimed of it. -/
  | notModelled (mnemonic : String)
  /-- The host wrote a request register or INBUF byte while BUSY = 1: no move (R187, R215). Raised by the host's writes.
  Safe for a host that keeps the protocol; R187 says which way it errs for one that does not. -/
  | requestWriteWhileBusy
  /-- The host wrote CMD while BUSY = 1: no move (R187, R216). Raised by the host's `writeCmd`. Safe as above. -/
  | issueWhileBusy
  /-- The host wrote a value above BUF_BYTES to INLEN: no move (R38, R187). Raised by `writeInlen`. Safe as above. -/
  | inlenAboveBuffer (n : Nat)
  deriving DecidableEq, Repr

/-- The request registers (R32 to R39): written by the host, read by the block. -/
structure Request where
  cmd : Option Code
  seq : Option Id
  next : Option Id
  kind : Option Byte
  reqid : Option Id
  inject : Option Bool
  inlen : Option Nat
  inbuf : Memory
  deriving DecidableEq, Repr

/-- The response registers that a completion writes (R42 to R52): written by the block, read by the host. -/
structure Response where
  status : Option (BitVec 3)
  crc : Option Crc
  crcOk : Option Bool
  outlen : Option Nat
  outbuf : Memory
  dKind : Option Byte
  dSeq : Option Id
  dNext : Option Id
  dLen : Option (BitVec 16)
  dChecksum : Option Crc
  dReqid : Option Id
  deriving DecidableEq, Repr

/-- What the host can do to the block in one move (R5, R32 to R39, R53, R56, R210, R224). -/
inductive HostMove where
  | writeSeq (v : Id)
  | writeNext (v : Id)
  | writeKind (v : Byte)
  | writeReqid (v : Id)
  | writeInject (v : Bool)
  | writeInlen (n : Nat)
  /-- INBUF bytes from an address on, in any grouping (R39, R65) -/
  | writeInbuf (addr : Nat) (bytes : List Byte)
  /-- writing CMD, which issues the command (R53) -/
  | writeCmd (code : Code)
  | read (what : ResponseReg)
  /-- n bytes of OUTBUF from an address on, in any grouping (R46, R65) -/
  | readOutbuf (addr n : Nat)
  | reset
  /-- the host does nothing and lets the block move -/
  | wait
  deriving DecidableEq, Repr

structure State where
  /-- the configuration (R13), changed by no step -/
  cfg : Config
  /-- the request registers (R32 to R39) -/
  req : Request
  /-- BUSY (R40) -/
  busy : Bool
  /-- RESP_VALID (R41) -/
  respValid : Bool
  /-- the response registers (R42 to R52) -/
  resp : Response
  /-- the fault record (R186, R210): the fault that stopped the block, if any -/
  faultRecord : Option Fault
  /-- the host's moves still to come, the model's own field (log entry 3) -/
  hostMoves : List HostMove
  deriving DecidableEq, Repr

/-- Every request register and INBUF byte ⊥ (R31). -/
def Request.blank : Request :=
  { cmd := none, seq := none, next := none, kind := none, reqid := none, inject := none, inlen := none, inbuf := [] }

/-- Every response register and OUTBUF byte ⊥ (R31). -/
def Response.blank : Response :=
  { status := none, crc := none, crcOk := none, outlen := none, outbuf := [], dKind := none, dSeq := none, dNext := none,
    dLen := none, dChecksum := none, dReqid := none }

/-- The state right after power-on, which is a reset (R210, R213), at the default configuration. -/
def State.reset : State :=
  { cfg := Config.default, req := Request.blank, busy := false, respValid := false, resp := Response.blank,
    faultRecord := none, hostMoves := [] }

end Sys2Proof.Machine
end

