-- ==== Sys2Proof/Machine/Ops.lean ====
section
/-! DEFINITION. The named operations: byte strings (R15), buffers (R60), and what happens to the state as a whole: issue
(R53), completion (R54), reset (R210) and a model fault (R186). The block takes no trap (R180, R191, R192): an error is a
completion whose STATUS is not OK, so `Response.finish` is the one operation every error goes through. -/

namespace Sys2Proof.Machine

/-- be_N (R15): the big-endian value of a byte string. -/
def beNat (s : List Byte) : Nat := s.foldl (fun acc b => acc * 256 + b.toNat) 0

/-- bytes_N (R15): the n-byte big-endian string of a value; of a value of 256^n or more, its n low bytes. -/
def bytesBE : Nat → Nat → List Byte
  | 0, _ => []
  | n + 1, v => BitVec.ofNat 8 (v / 256 ^ n) :: bytesBE n v

/-- The byte at an address, or ⊥ (R18). -/
def Memory.read : Memory → Nat → Option Byte
  | [], _ => none
  | (c, b) :: rest, a => if a = c then some b else Memory.read rest a

/-- One byte stored at an address. -/
def Memory.write : Memory → Nat → Byte → Memory
  | [], a, b => [(a, b)]
  | (c, d) :: rest, a, b =>
    if a < c then (a, b) :: (c, d) :: rest
    else if a = c then (a, b) :: rest
    else (c, d) :: Memory.write rest a b

/-- A byte string stored from an address on. -/
def Memory.writeBytes : Memory → Nat → List Byte → Memory
  | m, _, [] => m
  | m, a, b :: bs => Memory.writeBytes (Memory.write m a b) (a + 1) bs

/-- The buffer that holds a byte string from an address on, and ⊥ elsewhere. -/
def Memory.ofBytes : Nat → List Byte → Memory
  | _, [] => []
  | a, b :: bs => (a, b) :: Memory.ofBytes (a + 1) bs

/-- Addresses strictly rising and none below `lo`. -/
def Memory.wfFrom : Nat → Memory → Bool
  | _, [] => true
  | lo, (c, _) :: rest => decide (lo ≤ c) && Memory.wfFrom (c + 1) rest

/-- The canonical form. -/
def Memory.wf (m : Memory) : Bool := Memory.wfFrom 0 m

/-- Every listed address is below a bound. -/
def Memory.below (m : Memory) (bound : Nat) : Bool := m.all (fun cell => decide (cell.1 < bound))

/-- STATUS codes (R181). -/
def statusOk : BitVec 3 := 0#3
/-- R181, R182 -/
def statusMalformed : BitVec 3 := 1#3
/-- R181, R183 -/
def statusUnknownKind : BitVec 3 := 2#3
/-- R181, R184 -/
def statusBadOperand : BitVec 3 := 3#3
/-- R181, R185 -/
def statusIllegalCommand : BitVec 3 := 4#3

/-- `finish S` (R16, R54): STATUS is S, every register the rule has not written is ⊥. -/
def Response.finish (s : BitVec 3) : Response := { Response.blank with status := some s }

/-- The state after a completion with a response (R54): the response registers, BUSY = 0, RESP_VALID = 1. -/
def State.completed (s : State) (r : Response) : State := { s with busy := false, respValid := true, resp := r }

/-- The completion of a command (R54): its response, or the fault that a ⊥ operand raises (R56), which writes nothing. -/
def completeWith (s : State) (r : Except Fault Response) : Host.Outcome State Fault Refusal :=
  match r with
  | .ok resp => .next (s.completed resp)
  | .error f => .fault f

/-- The issue of a command (R53). -/
def State.issued (s : State) (c : Code) : State :=
  { s with req := { s.req with cmd := some c }, busy := true, respValid := false, resp := Response.blank }

/-- The reset event (R210): every register at its reset value; the configuration and the fault record stay. -/
def State.resetEvent (s : State) : State :=
  { s with req := Request.blank, busy := false, respValid := false, resp := Response.blank }

/-- A model fault (R186): the block is faulted, nothing else is written (R54). -/
def State.recordFault (s : State) (f : Fault) : State := { s with faultRecord := some f }

/-- The state with other host moves to come. -/
def State.withMoves (s : State) (ms : List HostMove) : State := { s with hostMoves := ms }

/-- The state with other request registers. -/
def State.withReq (s : State) (r : Request) : State := { s with req := r }

end Sys2Proof.Machine
end

