-- ==== Sys2Proof/Machine/Crc.lean ====
section
/-! DEFINITION. Crc32 (R150): the default CRC-32/ISO-HDLC, bit-serial with the least significant bit of each byte first, or
the uninterpreted algorithm that the configuration names (R10). -/

namespace Sys2Proof.Machine

/-- One of the eight shifts (R150). -/
def crcShift (r : Crc) : Crc :=
  if r.getLsbD 0 then (r >>> 1) ^^^ 0xEDB88320#32 else r >>> 1

/-- `repeat n times` of the shift. -/
def crcShifts : Nat → Crc → Crc
  | 0, r => r
  | n + 1, r => crcShifts n (crcShift r)

/-- One byte taken into the register (R150). -/
def crcByte (r : Crc) (b : Byte) : Crc := crcShifts 8 (r ^^^ b.setWidth 32)

/-- CRC-32/ISO-HDLC (R150, R151). -/
def crcIsoHdlc (s : List Byte) : Crc := s.foldl crcByte 0xFFFFFFFF#32 ^^^ 0xFFFFFFFF#32

/-- Crc32 under the configured CRC_ALGO (R10, R150). -/
def crc32 (c : Config) (s : List Byte) : Crc :=
  match c.crcAlgo with
  | .isoHdlc => crcIsoHdlc s
  | .other n => Config.otherCrc n s

end Sys2Proof.Machine
end

