-- ==== Sys2Proof/Machine/Operands.lean ====
section
/-! DEFINITION. The operand forms: a request register (R81), an INBUF byte, a string of INBUF bytes, and a big-endian field
of INBUF (MemRead, R16, R90). Each faults where it reads ⊥ (R56), naming the first ⊥ it reads. -/

namespace Sys2Proof.Machine

/-- A read of a request register or byte by the block: its value, or the fault that the spec says the read of ⊥ is (R18, R56, R186):
"a model must not substitute zero or any other value" (R18). -/
def need {α : Type} (what : Operand) : Option α → Except Fault α
  | some v => .ok v
  | none => .error (.unwrittenOperand what)

/-- `INBUF[a]` -/
def inByte (r : Request) (a : Nat) : Except Fault Byte := need (.inbuf a) (Memory.read r.inbuf a)

/-- `INBUF[a .. a+n)` -/
def inBytes (r : Request) : Nat → Nat → Except Fault (List Byte)
  | _, 0 => .ok []
  | a, n + 1 => do
    let b ← inByte r a
    let bs ← inBytes r (a + 1) n
    return b :: bs

/-- MemRead(a, n) (R16): the big-endian value of n bytes of INBUF. -/
def memRead (r : Request) (a n : Nat) : Except Fault Nat := do
  let bs ← inBytes r a n
  return beNat bs

end Sys2Proof.Machine
end

