-- ==== Sys2Proof/Machine/Codec.lean ====
section
/-! DEFINITION. The frame codec commands ENCODE_DATA (R110 to R114), ENCODE_CONTROL (R115 to R119) and DECODE (R120 to R125), and
the frame kinds, which are the arms of DECODE (R121) that the kind byte selects (R86, R88). -/

namespace Sys2Proof.Machine

/-- Error injection (R163): the last byte of the frame incremented modulo 256, no carry. -/
def bumpLast : List Byte → List Byte
  | [] => []
  | [b] => [b + 1#8]
  | b :: c :: bs => b :: bumpLast (c :: bs)

/-- The covered bytes of a data/file frame (R83, R152): `sequenceID ∥ nextSequenceID ∥ kind ∥ payloadLength ∥ payload`. -/
def dataFrameBody (seq next : Id) (k : Byte) (p : List Byte) : List Byte :=
  bytesBE 8 seq.toNat ++ bytesBE 8 next.toNat ++ [k] ++ bytesBE 2 p.length ++ p

/-- A data/file frame (R83) with its checksum placed big-endian (R153), the last byte corrupted on request (R163). -/
def dataFrame (c : Config) (seq next : Id) (k : Byte) (p : List Byte) (inject : Bool) : List Byte :=
  let body := dataFrameBody seq next k p
  let frame := body ++ bytesBE 4 (crc32 c body).toNat
  if inject then bumpLast frame else frame

/-- The first 17 bytes of a control frame (R84, R85): the two zero fields and the kind; a whole CF-H frame. -/
def controlHeader (k : Byte) : List Byte := bytesBE 8 0 ++ bytesBE 8 0 ++ [k]

/-- A control frame with requestedID (R84). -/
def controlIdFrame (k : Byte) (id : Id) : List Byte := controlHeader k ++ bytesBE 8 id.toNat

/-- An encoder's response with STATUS = OK: the frame in OUTBUF and its length in OUTLEN (R111, R116). -/
def frameOut (frame : List Byte) (len : Nat) : Response :=
  { Response.finish statusOk with outlen := some len, outbuf := Memory.ofBytes 0 frame }

/-- ENCODE_DATA (R111); the checks and the reads in the order of R112. -/
def encodeDataResponse (c : Config) (r : Request) : Except Fault Response := do
  let k ← need .kind r.kind
  if kindClass k ≠ .dataFile then return Response.finish statusBadOperand
  else
    let n ← need .inlen r.inlen
    if 65535 < n then return Response.finish statusBadOperand
    else if c.bufBytes < 23 + n then return Response.finish statusBadOperand
    else
      let seq ← need .seq r.seq
      let next ← need .next r.next
      let p ← inBytes r 0 n
      let inject ← need .inject r.inject
      return frameOut (dataFrame c seq next k p inject) (23 + n)

/-- ENCODE_CONTROL (R116). -/
def encodeControlResponse (r : Request) : Except Fault Response := do
  let k ← need .kind r.kind
  match kindClass k with
  | .controlId =>
    let id ← need .reqid r.reqid
    return frameOut (controlIdFrame k id) 25
  | .handshake => return frameOut (controlHeader k) 17
  | .dataFile => return Response.finish statusBadOperand
  | .unknown => return Response.finish statusBadOperand

/-- The DF arm of DECODE (R121), checks (3) and (4), for a datagram of n bytes and kind k. -/
def decodeDataFile (r : Request) (n : Nat) (k : Byte) : Except Fault Response := do
  if n < 23 then return Response.finish statusMalformed
  else
    let len ← memRead r 17 2
    if 19 + len + 4 ≠ n then return Response.finish statusMalformed
    else
      let seq ← memRead r 0 8
      let next ← memRead r 8 8
      let p ← inBytes r 19 len
      let checksum ← memRead r (19 + len) 4
      return { frameOut p len with
        dKind := some k, dSeq := some (BitVec.ofNat 64 seq), dNext := some (BitVec.ofNat 64 next),
        dLen := some (BitVec.ofNat 16 len), dChecksum := some (BitVec.ofNat 32 checksum) }

/-- Check (5) of DECODE (R121, R11): does a control datagram of n bytes have the length its kind needs? -/
def controlLengthOk (c : Config) (n needed : Nat) : Bool :=
  match c.lenPolicy with
  | .exact => decide (n = needed)
  | .atLeast => decide (needed ≤ n)

/-- Check (6) of DECODE (R121, R12): are the zero fields acceptable? Under IGNORE they are not read; under REQUIRE_ZERO
bytes 0 to 15 are all read (R123, log entry 9). -/
def zeroFieldsOk (c : Config) (r : Request) : Except Fault Bool :=
  match c.zeroPolicy with
  | .ignore => .ok true
  | .requireZero => do
    let z0 ← memRead r 0 8
    let z1 ← memRead r 8 8
    return decide (z0 = 0 ∧ z1 = 0)

/-- What DECODE writes for a control frame of kind k (R121), the requestedID for CF-R and ⊥ for CF-H. -/
def controlDecoded (k : Byte) (id : Option Id) : Response :=
  { frameOut [] 0 with dKind := some k, dReqid := id }

/-- The CF-R arm of DECODE (R121), checks (5) and (6). -/
def decodeControlId (c : Config) (r : Request) (n : Nat) (k : Byte) : Except Fault Response := do
  if controlLengthOk c n 25 then
    let zeros ← zeroFieldsOk c r
    if zeros then
      let id ← memRead r 17 8
      return controlDecoded k (some (BitVec.ofNat 64 id))
    else return Response.finish statusMalformed
  else return Response.finish statusMalformed

/-- The CF-H arm of DECODE (R121), checks (5) and (6). -/
def decodeHandshake (c : Config) (r : Request) (n : Nat) (k : Byte) : Except Fault Response := do
  if controlLengthOk c n 17 then
    let zeros ← zeroFieldsOk c r
    if zeros then return controlDecoded k none
    else return Response.finish statusMalformed
  else return Response.finish statusMalformed

/-- The arm of DECODE that a kind byte selects (R121, from check (2) on), for a datagram of n bytes. -/
def decodeArm (c : Config) (r : Request) (n : Nat) (k : Byte) : Except Fault Response :=
  match kindClass k with
  | .dataFile => decodeDataFile r n k
  | .controlId => decodeControlId c r n k
  | .handshake => decodeHandshake c r n k
  | .unknown => .ok (Response.finish statusUnknownKind)

/-- DECODE (R121): check (1), then the kind byte's arm. -/
def decodeResponse (c : Config) (r : Request) : Except Fault Response := do
  let n ← need .inlen r.inlen
  if n < 17 then return Response.finish statusMalformed
  else
    let k ← inByte r 16
    decodeArm c r n k

/-- DECODE of a datagram whose kind byte is known to be k (a row of the kind map): R121 without the read of byte 16. -/
def frameResponse (k : Byte) (c : Config) (r : Request) : Except Fault Response := do
  let n ← need .inlen r.inlen
  if n < 17 then return Response.finish statusMalformed
  else decodeArm c r n k

/-- ENCODE_DATA (R110 to R114) -/
def execEncodeData (s : State) : Host.Outcome State Fault Refusal := completeWith s (encodeDataResponse s.cfg s.req)

/-- ENCODE_CONTROL (R115 to R119) -/
def execEncodeControl (s : State) : Host.Outcome State Fault Refusal := completeWith s (encodeControlResponse s.req)

/-- DECODE (R120 to R125) -/
def execDecode (s : State) : Host.Outcome State Fault Refusal := completeWith s (decodeResponse s.cfg s.req)

/-- FRAME_DATA: DECODE of a datagram of kind 0x00 (R83, R121) -/
def execFrameData (s : State) : Host.Outcome State Fault Refusal := completeWith s (frameResponse 0x00#8 s.cfg s.req)

/-- FRAME_REQUEST: DECODE of a datagram of kind 0x01 (R84, R121) -/
def execFrameRequest (s : State) : Host.Outcome State Fault Refusal := completeWith s (frameResponse 0x01#8 s.cfg s.req)

/-- FRAME_FILE: DECODE of a datagram of kind 0x02 (R83, R121) -/
def execFrameFile (s : State) : Host.Outcome State Fault Refusal := completeWith s (frameResponse 0x02#8 s.cfg s.req)

/-- FRAME_SUCCESS: DECODE of a datagram of kind 0xC8 (R84, R121) -/
def execFrameSuccess (s : State) : Host.Outcome State Fault Refusal := completeWith s (frameResponse 0xC8#8 s.cfg s.req)

/-- FRAME_HANDSHAKE_ACK: DECODE of a datagram of kind 0xFE (R85, R121) -/
def execFrameHandshakeAck (s : State) : Host.Outcome State Fault Refusal :=
  completeWith s (frameResponse 0xFE#8 s.cfg s.req)

/-- FRAME_HANDSHAKE_REQUEST: DECODE of a datagram of kind 0xFF (R85, R121) -/
def execFrameHandshakeRequest (s : State) : Host.Outcome State Fault Refusal :=
  completeWith s (frameResponse 0xFF#8 s.cfg s.req)

/-- FRAME_UNKNOWN: DECODE of a datagram of any other kind (R88, R183) -/
def execFrameUnknown (k : Byte) (s : State) : Host.Outcome State Fault Refusal :=
  completeWith s (frameResponse k s.cfg s.req)

end Sys2Proof.Machine
end

