-- ==== Sys2Proof/Machine/Flags.lean ====
section
/-! DEFINITION. The block's one flag, CRC_OK (R44, R58). -/

namespace Sys2Proof.Machine

/-- CRC_OK (R159): 1 when the computed CRC equals the received checksum, a big-endian value, and 0 when not. -/
def crcOkFlag (computed : Crc) (received : Nat) : Bool := decide (computed.toNat = received)

end Sys2Proof.Machine
end

