-- ==== Sys2Proof/Machine/Validator.lean ====
section
/-! DEFINITION. The CRC validator commands CRC32 (R154 to R157) and VALIDATE (R158 to R162), and the reserved codes (R82). -/

namespace Sys2Proof.Machine

/-- CRC32 (R155) -/
def crc32Response (c : Config) (r : Request) : Except Fault Response := do
  let n ← need .inlen r.inlen
  let s ← inBytes r 0 n
  return { Response.finish statusOk with crc := some (crc32 c s) }

/-- VALIDATE past its kind checks (R159), for a data/file datagram of n bytes. -/
def validateDataFile (c : Config) (r : Request) (n : Nat) : Except Fault Response := do
  if n < 23 then return Response.finish statusMalformed
  else
    let len ← memRead r 17 2
    if 19 + len + 4 ≠ n then return Response.finish statusMalformed
    else
      let covered ← inBytes r 0 (19 + len)
      let received ← memRead r (19 + len) 4
      let computed := crc32 c covered
      return { Response.finish statusOk with crc := some computed, crcOk := some (crcOkFlag computed received) }

/-- VALIDATE (R159); the checks in the order of R160. -/
def validateResponse (c : Config) (r : Request) : Except Fault Response := do
  let n ← need .inlen r.inlen
  if n < 17 then return Response.finish statusMalformed
  else
    let k ← inByte r 16
    match kindClass k with
    | .unknown => return Response.finish statusUnknownKind
    | .controlId => return Response.finish statusBadOperand
    | .handshake => return Response.finish statusBadOperand
    | .dataFile => validateDataFile c r n

/-- A reserved command code (R82, R185): no operand is read. -/
def reservedResponse : Except Fault Response := .ok (Response.finish statusIllegalCommand)

/-- CRC32 (R154 to R157) -/
def execCrc32 (s : State) : Host.Outcome State Fault Refusal := completeWith s (crc32Response s.cfg s.req)

/-- VALIDATE (R158 to R162) -/
def execValidate (s : State) : Host.Outcome State Fault Refusal := completeWith s (validateResponse s.cfg s.req)

/-- RSV5 (R82) -/
def execRsv5 (s : State) : Host.Outcome State Fault Refusal := completeWith s reservedResponse

/-- RSV6 (R82) -/
def execRsv6 (s : State) : Host.Outcome State Fault Refusal := completeWith s reservedResponse

/-- RSV7 (R82) -/
def execRsv7 (s : State) : Host.Outcome State Fault Refusal := completeWith s reservedResponse

end Sys2Proof.Machine
end

