-- ==== Sys2Proof/Machine/Dispatch.lean ====
section
/-! DEFINITION. The completion of each instruction (R54): one arm per constructor, each one call of its meaning. -/

namespace Sys2Proof.Machine

def exec (i : Instr) (s : State) : Host.Outcome State Fault Refusal :=
  match i with
  | .crc32 => Sys2Proof.Machine.execCrc32 s
  | .encodeData => Sys2Proof.Machine.execEncodeData s
  | .encodeControl => Sys2Proof.Machine.execEncodeControl s
  | .decode => Sys2Proof.Machine.execDecode s
  | .validate => Sys2Proof.Machine.execValidate s
  | .rsv5 => Sys2Proof.Machine.execRsv5 s
  | .rsv6 => Sys2Proof.Machine.execRsv6 s
  | .rsv7 => Sys2Proof.Machine.execRsv7 s
  | .frameData => Sys2Proof.Machine.execFrameData s
  | .frameRequest => Sys2Proof.Machine.execFrameRequest s
  | .frameFile => Sys2Proof.Machine.execFrameFile s
  | .frameSuccess => Sys2Proof.Machine.execFrameSuccess s
  | .frameHandshakeAck => Sys2Proof.Machine.execFrameHandshakeAck s
  | .frameHandshakeRequest => Sys2Proof.Machine.execFrameHandshakeRequest s
  | .frameUnknown k => Sys2Proof.Machine.execFrameUnknown k s

end Sys2Proof.Machine
end

