-- ==== Sys2Proof/Machine/Fetch.lean ====
section
/-! DEFINITION. Where the block finds its next instruction, and how one is placed there. The block fetches nothing from memory
(R72): the pending command is the value of CMD (R53, R54), and a frame kind is byte 16 of the datagram that a pending DECODE
reads (R86, R121). -/

namespace Sys2Proof.Machine

/-- The pending command (R54, R80). CMD holds a value whenever BUSY = 1 (R53). -/
def fetch (s : State) : Except Fault Instr := do
  let c ← need .cmd s.req.cmd
  return decodeCommand c

/-- The operand registers a command reads (R81) that hold ⊥, given the value zero: an instruction whose operand words are
zeros. -/
def Request.zeroOperands (r : Request) : Instr → Request
  | .crc32 => { r with inlen := r.inlen.or (some 0) }
  | .encodeData =>
    { r with kind := r.kind.or (some 0#8), inlen := r.inlen.or (some 0), seq := r.seq.or (some 0#64),
             next := r.next.or (some 0#64), inject := r.inject.or (some false) }
  | .encodeControl => { r with kind := r.kind.or (some 0#8), reqid := r.reqid.or (some 0#64) }
  | .decode => { r with inlen := r.inlen.or (some 0) }
  | .validate => { r with inlen := r.inlen.or (some 0) }
  | .rsv5 => r
  | .rsv6 => r
  | .rsv7 => r
  | .frameData => r
  | .frameRequest => r
  | .frameFile => r
  | .frameSuccess => r
  | .frameHandshakeAck => r
  | .frameHandshakeRequest => r
  | .frameUnknown _ => r

/-- The datagram whose kind byte is k and whose other bytes are zero, of the length its format needs (R83 to R85); a DF
frame has payloadLength 0. -/
def zeroFrame (k : Byte) : List Byte :=
  match kindClass k with
  | .dataFile => controlHeader k ++ bytesBE 6 0
  | .controlId => controlHeader k ++ bytesBE 8 0
  | .handshake => controlHeader k
  | .unknown => controlHeader k

/-- The request with a datagram in INBUF and its length in INLEN (R94, `in="…"`). -/
def Request.withInput (r : Request) (bytes : List Byte) : Request :=
  { r with inbuf := Memory.writeBytes r.inbuf 0 bytes, inlen := some bytes.length }

/-- The operands under which the block runs an instruction: zeros where a command's operand register is ⊥, the frame of
zeros for a frame kind (log entry 7). -/
def placedRequest (r : Request) (i : Instr) : Request :=
  match encode i with
  | (.command, _) => Request.zeroOperands r i
  | (.kind, k) => Request.withInput r (zeroFrame k)

/-- The state in which the next step runs an instruction: issued (R53) with its operands placed, the block not faulted, and
the host letting the block move. -/
def State.place (s : State) (i : Instr) : State :=
  let moves := match s.hostMoves with
    | [] => []
    | m :: ms => .wait :: m :: ms
  { (s.withReq (placedRequest s.req i)).issued (commandCode i) with faultRecord := none, hostMoves := moves }

end Sys2Proof.Machine
end

