-- ==== Sys2Proof/Machine/Host.lean ====
section
/-! DEFINITION. The host's side of the interface: its writes (R32 to R39, R215), the issue of a command (R53, R216), its reads
(R56, R217), and the command lines and pseudo-commands of R94 and R95 as the moves they stand for. -/

namespace Sys2Proof.Machine

/-- The value of a response register or OUTBUF byte, `none` for ⊥ (R40 to R52). -/
def responseValue (s : State) : ResponseReg → Option Nat
  | .busy => some s.busy.toNat
  | .respValid => some s.respValid.toNat
  | .status => s.resp.status.map BitVec.toNat
  | .crc => s.resp.crc.map BitVec.toNat
  | .crcOk => s.resp.crcOk.map Bool.toNat
  | .outlen => s.resp.outlen
  | .outbuf a => (Memory.read s.resp.outbuf a).map BitVec.toNat
  | .dKind => s.resp.dKind.map BitVec.toNat
  | .dSeq => s.resp.dSeq.map BitVec.toNat
  | .dNext => s.resp.dNext.map BitVec.toNat
  | .dLen => s.resp.dLen.map BitVec.toNat
  | .dChecksum => s.resp.dChecksum.map BitVec.toNat
  | .dReqid => s.resp.dReqid.map BitVec.toNat

/-- May the host read this register now? BUSY and RESP_VALID always (R40, R41), the others when RESP_VALID = 1 (R217). -/
def responseReadable (s : State) : ResponseReg → Bool
  | .busy => true
  | .respValid => true
  | .status => s.respValid
  | .crc => s.respValid
  | .crcOk => s.respValid
  | .outlen => s.respValid
  | .outbuf _ => s.respValid
  | .dKind => s.respValid
  | .dSeq => s.respValid
  | .dNext => s.respValid
  | .dLen => s.respValid
  | .dChecksum => s.respValid
  | .dReqid => s.respValid

/-- Does the register exist? An OUTBUF address does below BUF_BYTES (R60). -/
def responseAddressOk (s : State) : ResponseReg → Bool
  | .outbuf a => decide (a < s.cfg.bufBytes)
  | .busy => true
  | .respValid => true
  | .status => true
  | .crc => true
  | .crcOk => true
  | .outlen => true
  | .dKind => true
  | .dSeq => true
  | .dNext => true
  | .dLen => true
  | .dChecksum => true
  | .dReqid => true

/-- The fault of a read at an OUTBUF address that does not exist. -/
def noSuchAddress : ResponseReg → Fault
  | .outbuf a => .addressOutsideBuffer a
  | r => .unwrittenResponse r

/-- What the host gets from a read (R56, R67, R217): the value, or the fault that the spec says the read of ⊥, or a read with
RESP_VALID = 0, is (R18, R56, R186, R217). DESIGN CHOICE (log entry 12): at an address that does not exist that fault comes first. -/
def hostRead (s : State) (r : ResponseReg) : Except Fault Nat :=
  if responseAddressOk s r then
    if responseReadable s r then
      match responseValue s r with
      | some v => .ok v
      | none => .error (.unwrittenResponse r)
    else .error (.unwrittenResponse r)
  else .error (noSuchAddress r)

/-- A host read of n bytes of OUTBUF from an address on (R46, R65): each byte as it reads alone, so the grouping has no effect. DESIGN
CHOICE (log entry 12): the fault is that of the first byte that faults, and a read of no byte reads nothing, at any address. -/
def hostReadOutbuf (s : State) : Nat → Nat → Except Fault (List Nat)
  | _, 0 => .ok []
  | a, n + 1 => do
    let b ← hostRead s (.outbuf a)
    let bs ← hostReadOutbuf s (a + 1) n
    return b :: bs

/-- What a host read does to the block (R67): nothing, or the fault. -/
def readDone {α : Type} (s : State) : Except Fault α → Host.Outcome State Fault Refusal
  | .ok _ => .next s
  | .error f => .fault f

/-- A host write of request registers: while BUSY = 1 there is no such move (R187, R215). -/
def hostWrite (s : State) (r : Request) : Host.Outcome State Fault Refusal :=
  if s.busy then .refused .requestWriteWhileBusy else .next (s.withReq r)

/-- A host write of INBUF bytes from an address on (R39, R60, R65). DESIGN CHOICE (log entry 12): a group that leaves the buffer
writes nothing, and the fault names its first address outside, `max a BUF_BYTES`; a write of no byte at an address above BUF_BYTES
is such a group and faults too, naming that address. While BUSY = 1 every group is refused, one of no byte and one that leaves the
buffer among them, though R215 speaks of a written byte. -/
def hostWriteInbuf (s : State) (a : Nat) (bytes : List Byte) : Host.Outcome State Fault Refusal :=
  if s.busy then .refused .requestWriteWhileBusy
  else if a + bytes.length ≤ s.cfg.bufBytes then
    .next (s.withReq { s.req with inbuf := Memory.writeBytes s.req.inbuf a bytes })
  else .fault (.addressOutsideBuffer (max a s.cfg.bufBytes))

/-- A host write of INLEN (R38). DESIGN CHOICE (log entry 13): of a write above BUF_BYTES while BUSY = 1, which R187 forbids twice, the
refusal names BUSY. -/
def hostWriteInlen (s : State) (n : Nat) : Host.Outcome State Fault Refusal :=
  if s.busy then .refused .requestWriteWhileBusy
  else if n ≤ s.cfg.bufBytes then .next (s.withReq { s.req with inlen := some n })
  else .refused (.inlenAboveBuffer n)

/-- A host write of CMD (R53, R216). -/
def hostIssue (s : State) (c : Code) : Host.Outcome State Fault Refusal :=
  if s.busy then .refused .issueWhileBusy else .next (s.issued c)

/-- One move of the host. A read returns its value to the host (`hostRead`, `hostReadOutbuf`) and changes nothing (R67). -/
def hostMove (m : HostMove) (s : State) : Host.Outcome State Fault Refusal :=
  match m with
  | .writeSeq v => hostWrite s { s.req with seq := some v }
  | .writeNext v => hostWrite s { s.req with next := some v }
  | .writeKind v => hostWrite s { s.req with kind := some v }
  | .writeReqid v => hostWrite s { s.req with reqid := some v }
  | .writeInject v => hostWrite s { s.req with inject := some v }
  | .writeInlen n => hostWriteInlen s n
  | .writeInbuf a bytes => hostWriteInbuf s a bytes
  | .writeCmd c => hostIssue s c
  | .read r => readDone s (hostRead s r)
  | .readOutbuf a n => readDone s (hostReadOutbuf s a n)
  | .reset => .next s.resetEvent
  | .wait => .next s

/-- A command line (R94). An operand left out (`none`) is not written and keeps its value. -/
inductive CommandLine where
  | crc32 (input : Option (List Byte))
  | encodeData (seq next : Option Id) (kind : Option Byte) (inject : Option Bool) (payload : Option (List Byte))
  | encodeControl (kind : Option Byte) (reqid : Option Id)
  | decode (input : Option (List Byte))
  | validate (input : Option (List Byte))
  | raw (code : Code)
  deriving DecidableEq, Repr

/-- `in` and `payload` (R94): INBUF[0 .. n) and INLEN = n. -/
def inputMoves : Option (List Byte) → List HostMove
  | none => []
  | some bytes => [.writeInbuf 0 bytes, .writeInlen bytes.length]

/-- The write of one operand, if it is given. -/
def operandMoves {α : Type} (write : α → HostMove) : Option α → List HostMove
  | none => []
  | some v => [write v]

/-- The host moves a command line stands for (R94): the named operands, then CMD (R80). -/
def CommandLine.moves : CommandLine → List HostMove
  | .crc32 input => inputMoves input ++ [.writeCmd 0#3]
  | .encodeData seq next kind inject payload =>
    operandMoves .writeSeq seq ++ operandMoves .writeNext next ++ operandMoves .writeKind kind ++
      operandMoves .writeInject inject ++ inputMoves payload ++ [.writeCmd 1#3]
  | .encodeControl kind reqid => operandMoves .writeKind kind ++ operandMoves .writeReqid reqid ++ [.writeCmd 2#3]
  | .decode input => inputMoves input ++ [.writeCmd 3#3]
  | .validate input => inputMoves input ++ [.writeCmd 4#3]
  | .raw c => [.writeCmd c]

/-- ENC_REQUEST id (R95) -/
def encRequest (id : Id) : CommandLine := .encodeControl (some 0x01#8) (some id)

/-- ENC_SUCCESS (R95) -/
def encSuccess : CommandLine := .encodeControl (some 0xC8#8) (some 0#64)

/-- ENC_HS_REQ (R95) -/
def encHandshakeRequest : CommandLine := .encodeControl (some 0xFF#8) none

/-- ENC_HS_ACK (R95) -/
def encHandshakeAck : CommandLine := .encodeControl (some 0xFE#8) none

/-- RECEIVE in, first half (R95): DECODE in. -/
def receiveFirst (input : List Byte) : CommandLine := .decode (some input)

/-- RECEIVE in, second half (R95), chosen by the host from the response of the first: VALIDATE in for a data/file frame. -/
def receiveSecond (input : List Byte) (s : State) : List HostMove :=
  if s.resp.status = some statusOk ∧ (s.resp.dKind = some 0x00#8 ∨ s.resp.dKind = some 0x02#8) then
    CommandLine.moves (.validate (some input))
  else []

end Sys2Proof.Machine
end

