-- ==== Sys2Proof/Machine/Step.lean ====
section
/-! DEFINITION. One step of the machine (R5, R6, R54): the host's next move, or the block's completion of its pending command. -/

namespace Sys2Proof.Machine

/-- The block's own step (R54): with BUSY = 1 the completion of the pending command, with BUSY = 0 nothing (R199). -/
def blockStep (s : State) : Host.Outcome State Fault Refusal :=
  if s.busy then
    match fetch s with
    | .ok i => exec i s
    | .error f => .fault f
  else .next s

/-- One step. The host's moves come first, in their order; `wait`, or no move left, lets the block move. A faulted block
(R186) gives no response and stays faulted; reset alone is still taken, and does not clear the record (R210). -/
def step (s : State) : Host.Outcome State Fault Refusal :=
  match s.hostMoves with
  | [] =>
    match s.faultRecord with
    | some f => .fault f
    | none => blockStep s
  | m :: rest =>
    if m = .reset then hostMove m (s.withMoves rest)
    else
      match s.faultRecord with
      | some f => .fault f
      | none => if m = .wait then blockStep (s.withMoves rest) else hostMove m (s.withMoves rest)

/-- The state a step leaves, a fault recorded in it (R54, R186): a faulted completion writes nothing and leaves BUSY = 1. -/
def settle (s : State) : State :=
  match step s with
  | .next t => t
  | .fault f => s.recordFault f
  | .refused _ => s

/-- A number of steps, stopping at the first fault or refusal. -/
def run : Nat → State → Host.Outcome State Fault Refusal
  | 0, s => .next s
  | n + 1, s =>
    match step s with
    | .next t => run n t
    | .fault f => .fault f
    | .refused r => .refused r

/-- The state whose next step runs the instruction that a table row's bits are (log entry 7). -/
def State.withFetchWord (s : State) (nbits w : Nat) : State :=
  match decodeTableWord nbits w with
  | some i => s.place i
  | none => s

end Sys2Proof.Machine
end

