-- ==== Sys2Proof/Safety.lean ====
section
/-! DEFINITION. What counts as a good state and a good run, in the terms the statements use: the inputs of a command, the
registers a response defines (R55), the operands that are ⊥, the invariant every step keeps, and the catalogue form of the
default CRC (R151). -/

namespace Sys2Proof.Machine

/-- A buffer holds a byte string from an address on. -/
def BufferHolds (m : Memory) (a : Nat) (bs : List Byte) : Prop :=
  ∀ i, i < bs.length → Memory.read m (a + i) = bs[i]?

/-- INBUF[0 .. INLEN) is a byte string, with INLEN its length (R39). -/
def HasInput (s : State) (bs : List Byte) : Prop :=
  s.req.inlen = some bs.length ∧ BufferHolds s.req.inbuf 0 bs

/-- The payloadLength of a datagram of n bytes fits it (R121, check (4)): `19 + payloadLength + 4 = n`. -/
def LengthRule (m : Memory) (n : Nat) : Prop :=
  23 ≤ n ∧ n - 23 < 65536 ∧ BufferHolds m 17 (bytesBE 2 (n - 23))

/-- The INBUF bytes that DECODE or VALIDATE reads of a data/file datagram of n bytes (R121, R159, R123, R160), byte 16 apart: the
payloadLength once n ≥ 23, every byte once the length rule holds. -/
def DataFileReads (m : Memory) (n a : Nat) : Prop :=
  23 ≤ n ∧ (a = 17 ∨ a = 18 ∨ (LengthRule m n ∧ a < n))

/-- The INBUF bytes that VALIDATE reads of a datagram of n bytes (R81, R159, R160). -/
def ValidateReads (m : Memory) (n a : Nat) : Prop :=
  17 ≤ n ∧ (a = 16 ∨ ∃ k, Memory.read m 16 = some k ∧ (k = 0x00#8 ∨ k = 0x02#8) ∧ DataFileReads m n a)

/-- The length a control frame of kind k needs: 25 bytes for CF-R (R84), 17 for CF-H (R85). -/
def ControlNeeds (k : Byte) (needed : Nat) : Prop :=
  ((k = 0x01#8 ∨ k = 0xC8#8) ∧ needed = 25) ∨ ((k = 0xFE#8 ∨ k = 0xFF#8) ∧ needed = 17)

/-- The INBUF bytes that DECODE reads of a control datagram of n bytes and kind k (R121, R123), byte 16 apart: none unless the length
policy accepts n; bytes 0 to 15 under REQUIRE_ZERO; bytes 17 to 24 of a CF-R frame whose zero fields are accepted. -/
def ControlReads (c : Config) (m : Memory) (n : Nat) (k : Byte) (a : Nat) : Prop :=
  ∃ needed, ControlNeeds k needed ∧ (n = needed ∨ (c.lenPolicy = .atLeast ∧ needed ≤ n)) ∧
    ((c.zeroPolicy = .requireZero ∧ a < 16) ∨
     (17 ≤ a ∧ a < needed ∧ (c.zeroPolicy = .ignore ∨ BufferHolds m 0 (List.replicate 16 0#8))))

/-- The INBUF bytes that DECODE reads of a datagram of n bytes (R81, R121, R123): byte 16 once n ≥ 17, and what the shape of its kind
reads; no other byte of an unknown kind. -/
def DecodeReads (c : Config) (m : Memory) (n a : Nat) : Prop :=
  17 ≤ n ∧ (a = 16 ∨ ∃ k, Memory.read m 16 = some k ∧
    (((k = 0x00#8 ∨ k = 0x02#8) ∧ DataFileReads m n a) ∨ ControlReads c m n k a))

/-- ENCODE_DATA in a state completes with STATUS = OK and OUTBUF[0 .. OUTLEN) is a frame (R111). -/
def EncodesData (e : State) (frame : List Byte) : Prop :=
  ∃ t, exec .encodeData e = .next t ∧ t.resp.status = some statusOk ∧ t.resp.outlen = some frame.length ∧
    t.resp.outbuf = Memory.ofBytes 0 frame

/-- ENCODE_CONTROL in a state completes with STATUS = OK and OUTBUF[0 .. OUTLEN) is a frame (R116). -/
def EncodesControl (e : State) (frame : List Byte) : Prop :=
  ∃ t, exec .encodeControl e = .next t ∧ t.resp.status = some statusOk ∧ t.resp.outlen = some frame.length ∧
    t.resp.outbuf = Memory.ofBytes 0 frame

/-- The checksum with its low byte incremented modulo 256 (R163): `(c AND 0xFFFFFF00) OR ((c[7:0] + 1) mod 256)`. -/
def bumpedChecksum (c : Crc) : Crc := (c &&& 0xFFFFFF00#32) ||| (((c &&& 0xFF#32) + 1#32) &&& 0xFF#32)

/-- A request operand is ⊥ (R18). -/
def operandUnwritten (r : Request) : Operand → Prop
  | .cmd => r.cmd = none
  | .seq => r.seq = none
  | .next => r.next = none
  | .kind => r.kind = none
  | .reqid => r.reqid = none
  | .inject => r.inject = none
  | .inlen => r.inlen = none
  | .inbuf a => Memory.read r.inbuf a = none

/-- Two outcomes of a completion give the host the same: the same fault, or the same response registers. -/
def SameResponse (x y : Host.Outcome State Fault Refusal) : Prop :=
  (∃ f, x = .fault f ∧ y = .fault f) ∨ (∃ s t, x = .next s ∧ y = .next t ∧ s.resp = t.resp)

/-- A register's name if it holds a value. -/
def definedName {α : Type} (r : ResponseReg) (v : Option α) : List ResponseReg := if v.isSome then [r] else []

/-- The response registers that hold a value (OUTBUF apart, of which R55 says [0 .. OUTLEN)). -/
def definedRegs (r : Response) : List ResponseReg :=
  definedName .status r.status ++ definedName .crc r.crc ++ definedName .crcOk r.crcOk ++ definedName .outlen r.outlen ++
    definedName .dKind r.dKind ++ definedName .dSeq r.dSeq ++ definedName .dNext r.dNext ++ definedName .dLen r.dLen ++
    definedName .dChecksum r.dChecksum ++ definedName .dReqid r.dReqid

/-- The row of R55's table for DECODE with STATUS = OK, by D_KIND. -/
def decodedRegs (k : Byte) : List ResponseReg :=
  match kindClass k with
  | .dataFile => [.status, .outlen, .dKind, .dSeq, .dNext, .dLen, .dChecksum]
  | .controlId => [.status, .outlen, .dKind, .dReqid]
  | .handshake => [.status, .outlen, .dKind]
  | .unknown => []

/-- The row of R55's table for a command code and a response: which registers are defined. -/
def expectedRegs (c : Code) (r : Response) : List ResponseReg :=
  if r.status = some statusOk then
    if c = 0#3 then [.status, .crc]
    else if c = 1#3 then [.status, .outlen]
    else if c = 2#3 then [.status, .outlen]
    else if c = 3#3 then (match r.dKind with
      | some k => decodedRegs k
      | none => [])
    else if c = 4#3 then [.status, .crc, .crcOk]
    else []
  else [.status]

/-- OUTBUF is defined exactly at [0 .. OUTLEN), nowhere when OUTLEN is ⊥ (R46, R55). -/
abbrev outbufExact (r : Response) : Prop := r.outbuf.map Prod.fst = List.range (r.outlen.getD 0)

/-- The STATUS codes a command may write (R181). -/
def statusesOf (c : Code) : List (BitVec 3) :=
  if c = 0#3 then [statusOk]
  else if c = 1#3 then [statusOk, statusBadOperand]
  else if c = 2#3 then [statusOk, statusBadOperand]
  else if c = 3#3 then [statusOk, statusMalformed, statusUnknownKind]
  else if c = 4#3 then [statusOk, statusMalformed, statusUnknownKind, statusBadOperand]
  else [statusIllegalCommand]

/-- A response as a completion of a command leaves it (R55, R181). -/
def responseOk (c : Code) (r : Response) : Bool :=
  decide (definedRegs r = expectedRegs c r) && decide (outbufExact r) && r.status.any (fun st => (statusesOf c).contains st)

/-- The request registers are in range (R38, R39, R60): INLEN and every INBUF address fit the buffer, INBUF is canonical. -/
def requestOk (c : Config) (r : Request) : Bool :=
  Memory.wf r.inbuf && Memory.below r.inbuf c.bufBytes && r.inlen.all (fun n => decide (n ≤ c.bufBytes))

/-- The protocol of R53 and R54: while a command is pending nothing is valid and CMD holds it; while no response is valid
every response register is ⊥; a valid response is one the command in CMD leaves. -/
def protocolOk (s : State) : Bool :=
  (!s.busy || (!s.respValid && s.req.cmd.isSome)) &&
  (s.respValid || decide (s.resp = Response.blank)) &&
  (!s.respValid || s.req.cmd.any (fun c => responseOk c s.resp))

/-- The invariant: a legal configuration (R8), request registers in range, OUTLEN within OUTBUF and OUTBUF canonical (R45,
R46), and the protocol. -/
def State.inv (s : State) : Bool :=
  s.cfg.wf && requestOk s.cfg s.req && Memory.wf s.resp.outbuf && s.resp.outlen.all (fun n => decide (n ≤ s.cfg.bufBytes)) &&
    protocolOk s

/-- A host that only waits and polls BUSY and RESP_VALID (R193). -/
def pollsOnly (ms : List HostMove) : Bool :=
  ms.all (fun m => m == .read .busy || m == .read .respValid)

/-- One shift of the catalogue form (R151): most significant bit first, polynomial 0x04C11DB7. -/
def catalogueShift (r : Crc) : Crc := if r.msb then (r <<< 1) ^^^ 0x04C11DB7#32 else r <<< 1

/-- `n` shifts of the catalogue form. -/
def catalogueShifts : Nat → Crc → Crc
  | 0, r => r
  | n + 1, r => catalogueShifts n (catalogueShift r)

/-- One byte of the catalogue form, input reflected (R151). -/
def catalogueByte (r : Crc) (b : Byte) : Crc := catalogueShifts 8 (r ^^^ (b.reverse.setWidth 32 <<< 24))

/-- The catalogue form (R151): initial value 0xFFFFFFFF, input and output reflected, final XOR 0xFFFFFFFF. -/
def catalogueCrc (s : List Byte) : Crc := (s.foldl catalogueByte 0xFFFFFFFF#32).reverse ^^^ 0xFFFFFFFF#32

end Sys2Proof.Machine
end

