-- ==== Sys2Proof/Certificates/Slice0/Obligations.lean ====
section
/-! DEFINITION. The statements for the provers. Each is about every state, so about every configuration (BUF_BYTES, CRC_ALGO,
both policies), unless it names one. -/

open Sys2Proof Sys2Proof.Machine

/- ## Encodings -/

/-- Words written out from R80, R82 and R86 decode to the instructions they stand for. -/
def Obligations.SpecWordsDecode : Prop :=
  decode .command [0b000#8] = .ok (.crc32, []) ∧
  decode .command [0b001#8] = .ok (.encodeData, []) ∧
  decode .command [0b010#8] = .ok (.encodeControl, []) ∧
  decode .command [0b011#8] = .ok (.decode, []) ∧
  decode .command [0b100#8] = .ok (.validate, []) ∧
  decode .command [0b101#8] = .ok (.rsv5, []) ∧
  decode .command [0b110#8] = .ok (.rsv6, []) ∧
  decode .command [0b111#8] = .ok (.rsv7, []) ∧
  decode .kind [0b00000000#8] = .ok (.frameData, []) ∧
  decode .kind [0b00000001#8] = .ok (.frameRequest, []) ∧
  decode .kind [0b00000010#8] = .ok (.frameFile, []) ∧
  decode .kind [0b11001000#8] = .ok (.frameSuccess, []) ∧
  decode .kind [0b11111110#8] = .ok (.frameHandshakeAck, []) ∧
  decode .kind [0b11111111#8] = .ok (.frameHandshakeRequest, []) ∧
  decode .kind [0b00000011#8] = .ok (.frameUnknown 0x03#8, []) ∧
  decode .kind [0b11001001#8] = .ok (.frameUnknown 0xC9#8, [])

/-- Every well-formed instruction is decoded from its code, with any bytes after it left over (R80, R82, R86, R88). -/
def Obligations.DecodeOfEncode : Prop :=
  ∀ (i : Instr) (rest : List Byte), i.wf = true → decode (encode i).1 ((encode i).2 :: rest) = .ok (i, rest)

/-- What the decoder answers is well formed and encodes to the byte it was read from, and it rejects exactly the empty list
and a command byte above CMD's three bits: no two rows share a code (R80, R82, R86, R88). -/
def Obligations.EncodeOfDecode : Prop :=
  ∀ (m : OpMap) (bytes : List Byte),
    (∀ i rest, decode m bytes = .ok (i, rest) → i.wf = true ∧ encode i = (m, bytes.headD 0#8) ∧ bytes = (encode i).2 :: rest) ∧
    (∀ e, decode m bytes = .error e ↔
      (bytes = [] ∧ e = .noByte) ∨ (m = .command ∧ ∃ b rest, bytes = b :: rest ∧ 8 ≤ b.toNat ∧ e = .notACommandCode b))

/- ## Reset and the host's moves -/

/-- R213: power-on leaves the state that a reset leaves: BUSY = 0, RESP_VALID = 0, every other register and byte ⊥. -/
def Obligations.PowerOnState : Prop :=
  State.reset.busy = false ∧ State.reset.respValid = false ∧
  State.reset.req.cmd = none ∧ State.reset.req.seq = none ∧ State.reset.req.next = none ∧ State.reset.req.kind = none ∧
  State.reset.req.reqid = none ∧ State.reset.req.inject = none ∧ State.reset.req.inlen = none ∧
  (∀ a, Memory.read State.reset.req.inbuf a = none) ∧
  State.reset.resp.status = none ∧ State.reset.resp.crc = none ∧ State.reset.resp.crcOk = none ∧
  State.reset.resp.outlen = none ∧ (∀ a, Memory.read State.reset.resp.outbuf a = none) ∧ State.reset.resp.dKind = none ∧
  State.reset.resp.dSeq = none ∧ State.reset.resp.dNext = none ∧ State.reset.resp.dLen = none ∧
  State.reset.resp.dChecksum = none ∧ State.reset.resp.dReqid = none ∧
  (∀ s : State, (s.resetEvent.req, s.resetEvent.busy, s.resetEvent.respValid, s.resetEvent.resp) =
    (State.reset.req, State.reset.busy, State.reset.respValid, State.reset.resp))

/-- R210: reset, asserted in any state, sets every register to its reset value and keeps the configuration and the fault
record. -/
def Obligations.ResetEventClears : Prop :=
  ∀ (s : State) (rest : List HostMove), s.hostMoves = .reset :: rest →
    ∃ t, step s = .next t ∧ t.busy = false ∧ t.respValid = false ∧
      t.req.cmd = none ∧ t.req.seq = none ∧ t.req.next = none ∧ t.req.kind = none ∧ t.req.reqid = none ∧
      t.req.inject = none ∧ t.req.inlen = none ∧ (∀ a, Memory.read t.req.inbuf a = none) ∧
      t.resp.status = none ∧ t.resp.crc = none ∧ t.resp.crcOk = none ∧ t.resp.outlen = none ∧
      (∀ a, Memory.read t.resp.outbuf a = none) ∧ t.resp.dKind = none ∧ t.resp.dSeq = none ∧ t.resp.dNext = none ∧
      t.resp.dLen = none ∧ t.resp.dChecksum = none ∧ t.resp.dReqid = none ∧
      t.cfg = s.cfg ∧ t.faultRecord = s.faultRecord ∧ t.hostMoves = rest

/-- R211: a command pending when reset is asserted never completes: the block is idle from then on, however long it runs. -/
def Obligations.ResetAbandonsPending : Prop :=
  ∀ s : State, s.busy = true → s.faultRecord = none → s.hostMoves = [.reset] →
    ∃ t, step s = .next t ∧ t.busy = false ∧ t.respValid = false ∧
      ∀ n, run n t = .next t

/-- R53: the issue of a command by writing CMD while BUSY = 0, and no such move while BUSY = 1. -/
def Obligations.IssueStep : Prop :=
  ∀ (s : State) (c : Code) (rest : List HostMove), s.hostMoves = .writeCmd c :: rest → s.faultRecord = none →
    (s.busy = false → ∃ t, step s = .next t ∧ t.busy = true ∧ t.respValid = false ∧
      t.resp.status = none ∧ t.resp.crc = none ∧ t.resp.crcOk = none ∧ t.resp.outlen = none ∧
      (∀ a, Memory.read t.resp.outbuf a = none) ∧ t.resp.dKind = none ∧ t.resp.dSeq = none ∧ t.resp.dNext = none ∧
      t.resp.dLen = none ∧ t.resp.dChecksum = none ∧ t.resp.dReqid = none ∧
      t.req = { s.req with cmd := some c } ∧ t.cfg = s.cfg ∧ t.faultRecord = none ∧ t.hostMoves = rest) ∧
    (s.busy = true → step s = .refused .issueWhileBusy)

/-- R32 to R39, R65: a host write of a request register while BUSY = 0 sets that register and nothing else; a write of INBUF
bytes within the buffer sets those bytes and no other. -/
def Obligations.HostWritesTakeEffect : Prop :=
  ∀ (s : State) (rest : List HostMove), s.faultRecord = none → s.busy = false →
    (∀ v, s.hostMoves = .writeSeq v :: rest →
      step s = .next { s with req := { s.req with seq := some v }, hostMoves := rest }) ∧
    (∀ v, s.hostMoves = .writeNext v :: rest →
      step s = .next { s with req := { s.req with next := some v }, hostMoves := rest }) ∧
    (∀ v, s.hostMoves = .writeKind v :: rest →
      step s = .next { s with req := { s.req with kind := some v }, hostMoves := rest }) ∧
    (∀ v, s.hostMoves = .writeReqid v :: rest →
      step s = .next { s with req := { s.req with reqid := some v }, hostMoves := rest }) ∧
    (∀ v, s.hostMoves = .writeInject v :: rest →
      step s = .next { s with req := { s.req with inject := some v }, hostMoves := rest }) ∧
    (∀ n, s.hostMoves = .writeInlen n :: rest → n ≤ s.cfg.bufBytes →
      step s = .next { s with req := { s.req with inlen := some n }, hostMoves := rest }) ∧
    (∀ a bs, s.hostMoves = .writeInbuf a bs :: rest → a + bs.length ≤ s.cfg.bufBytes →
      ∃ m, step s = .next { s with req := { s.req with inbuf := m }, hostMoves := rest } ∧
        (∀ i, i < bs.length → Memory.read m (a + i) = bs[i]?) ∧
        (∀ x, x < a ∨ a + bs.length ≤ x → Memory.read m x = Memory.read s.req.inbuf x))

/-- R187: a write of a request register, of INBUF or of CMD while BUSY = 1, and a write of INLEN above BUF_BYTES, is no move:
the step refuses it by name. That a group of no INBUF byte is refused with the others is the model's choice (log entry 12), and so
is that the refusal names BUSY where INLEN is above BUF_BYTES too (log entry 13). -/
def Obligations.HostViolationsHaveNoMove : Prop :=
  ∀ (s : State) (rest : List HostMove), s.faultRecord = none →
    (s.busy = true →
      (∀ m, (∃ v, m = .writeSeq v) ∨ (∃ v, m = .writeNext v) ∨ (∃ v, m = .writeKind v) ∨ (∃ v, m = .writeReqid v) ∨
          (∃ v, m = .writeInject v) ∨ (∃ n, m = .writeInlen n) ∨ (∃ a bs, m = HostMove.writeInbuf a bs) →
        s.hostMoves = m :: rest → step s = .refused .requestWriteWhileBusy) ∧
      (∀ c, s.hostMoves = .writeCmd c :: rest → step s = .refused .issueWhileBusy)) ∧
    (s.busy = false → ∀ n, s.cfg.bufBytes < n → s.hostMoves = .writeInlen n :: rest →
      step s = .refused (.inlenAboveBuffer n))

/-- R56, R67, R217: a host read of BUSY or RESP_VALID gives its value and changes nothing but that the move is taken; so does a read
of another register with RESP_VALID = 1 and the register defined; a read with RESP_VALID = 0, or of a register that is ⊥, is the fault
UNWRITTEN_RESPONSE. -/
def Obligations.HostReadsOrFaults : Prop :=
  ∀ (s : State) (r : ResponseReg) (rest : List HostMove), s.hostMoves = .read r :: rest → s.faultRecord = none →
    (r = .busy → hostRead s r = .ok s.busy.toNat ∧ step s = .next { s with hostMoves := rest }) ∧
    (r = .respValid → hostRead s r = .ok s.respValid.toNat ∧ step s = .next { s with hostMoves := rest }) ∧
    (r ≠ .busy → r ≠ .respValid → (∀ a, r = .outbuf a → a < s.cfg.bufBytes) →
      (s.respValid = true → ∀ v, responseValue s r = some v →
        hostRead s r = .ok v ∧ step s = .next { s with hostMoves := rest }) ∧
      (s.respValid = false ∨ responseValue s r = none → step s = .fault (.unwrittenResponse r)))

/-- R54, R186, R210: a faulted block takes no step but a reset, which leaves it faulted. That a faulted block stops is the model's
choice (log entry 5). -/
def Obligations.FaultedBlockOnlyResets : Prop :=
  ∀ (s : State) (f : Fault), s.faultRecord = some f →
    ((∀ rest, s.hostMoves ≠ .reset :: rest) → step s = .fault f) ∧
    (∀ t, step s = .next t → t.faultRecord = some f ∧ ∃ rest, s.hostMoves = .reset :: rest)

/-- R65: the grouping of host writes of INBUF bytes has no effect. -/
def Obligations.WriteGrouping : Prop :=
  ∀ (s : State) (a : Nat) (xs ys : List Byte) (rest : List HostMove), s.faultRecord = none → s.busy = false →
    a + (xs ++ ys).length ≤ s.cfg.bufBytes →
    ∃ t, step (s.withMoves (.writeInbuf a (xs ++ ys) :: rest)) = .next t ∧
      run 2 (s.withMoves (.writeInbuf a xs :: .writeInbuf (a + xs.length) ys :: rest)) = .next t

/- ## The step -/

/-- R53, R54, R80: when CMD holds a code that decodes to a well-formed instruction and the command is pending, the step is
exec of that instruction, with no host move before it or with the host's `wait` taken off (the model's list of host moves, log
entry 3). -/
def Obligations.StepRunsPendingCommand : Prop :=
  ∀ (s : State) (c : Code) (i : Instr), s.busy = true → s.faultRecord = none → s.req.cmd = some c →
    decode .command [c.setWidth 8] = .ok (i, []) → i.wf = true →
    (s.hostMoves = [] → step s = exec i s) ∧
    (∀ rest, s.hostMoves = .wait :: rest → step s = exec i { s with hostMoves := rest })

/-- R86, R121: DECODE of a datagram whose byte 16 is written, whatever INLEN is and ⊥ too, is exec of the instruction that the byte
decodes to (a kind row is DECODE's arm, log entry 11); and every kind row, whatever byte 16 is and ⊥ too, gives MALFORMED and
nothing else below 17 bytes, and faults where INLEN is ⊥. -/
def Obligations.DecodeRunsFrameKind : Prop :=
  ∀ s : State,
    (∀ (k : Byte) (i : Instr), Memory.read s.req.inbuf 16 = some k → decode .kind [k] = .ok (i, []) →
      exec .decode s = exec i s) ∧
    (∀ i : Instr, (encode i).1 = .kind →
      (∀ n, s.req.inlen = some n → n < 17 → exec i s = .next { s with busy := false, respValid := true, resp :=
        { Response.blank with status := some 1#3 } }) ∧
      (s.req.inlen = none → exec i s = .fault (.unwrittenOperand .inlen)))

/-- R199, R212: an idle block with no host move stays as it is. -/
def Obligations.IdleBlockRests : Prop :=
  ∀ s : State, s.busy = false → s.faultRecord = none → s.hostMoves = [] → step s = .next s

/-- R54, R186: a completion that raises a fault writes nothing, leaves BUSY = 1 and faults the block. That the state it leaves is
`settle` (the fault recorded) and that the faulted block takes no further step is the model's choice (log entry 5). -/
def Obligations.FaultedCompletionWritesNothing : Prop :=
  ∀ (s : State) (c : Code) (f : Fault), s.busy = true → s.faultRecord = none → s.hostMoves = [] → s.req.cmd = some c →
    exec (decodeCommand c) s = .fault f →
    settle s = { s with faultRecord := some f } ∧ (settle s).busy = true ∧ step (settle s) = .fault f

/-- R193, R221, and the model's order of moves (log entry 3): a host that only polls BUSY and RESP_VALID sees the pending command end: after one step a poll and one more,
the machine is where the command's completion takes it. -/
def Obligations.PollingEnds : Prop :=
  ∀ (s : State) (c : Code), s.busy = true → s.faultRecord = none → s.req.cmd = some c → pollsOnly s.hostMoves = true →
    run (s.hostMoves.length + 1) s = exec (decodeCommand c) { s with hostMoves := [] }

/-- R94: the command line `CRC32 in="…"`, as the host's moves (log entry 3), ends with the CRC of its bytes in CRC. -/
def Obligations.CommandLineRuns : Prop :=
  ∀ (s : State) (bs : List Byte), s.busy = false → s.faultRecord = none → bs.length ≤ s.cfg.bufBytes →
    s.hostMoves = CommandLine.moves (.crc32 (some bs)) →
    ∃ t : State, run 4 s = .next t ∧ t.busy = false ∧ t.respValid = true ∧
      t.resp = { Response.blank with status := some 0#3, crc := some (crc32 s.cfg bs) } ∧ t.hostMoves = []

/- ## CRC32 -/

/-- R155: CRC32 writes STATUS = OK and the CRC of INBUF[0 .. INLEN), and no other response register. -/
def Obligations.Crc32Semantics : Prop :=
  ∀ (s : State) (bs : List Byte), HasInput s bs →
    exec .crc32 s = .next { s with busy := false, respValid := true, resp :=
      { Response.blank with status := some 0#3, crc := some (crc32 s.cfg bs) } }

/-- R156: CRC32 faults when INLEN is ⊥ or a byte of INBUF[0 .. INLEN) is. That the fault names the first ⊥ byte in rising order is
read from R81, R189 and the byte order of R150 (log entry 17, DEDUCED). -/
def Obligations.Crc32Faults : Prop :=
  ∀ s : State,
    (s.req.inlen = none → exec .crc32 s = .fault (.unwrittenOperand .inlen)) ∧
    (∀ n a, s.req.inlen = some n → a < n → Memory.read s.req.inbuf a = none →
      (∀ b, b < a → Memory.read s.req.inbuf b ≠ none) → exec .crc32 s = .fault (.unwrittenOperand (.inbuf a)))

/-- R157: under the default CRC_ALGO, CRC32 of the ASCII bytes "123456789" gives STATUS = OK and CRC = 0xCBF43926. -/
def Obligations.Crc32WorkedExample : Prop :=
  ∀ s : State, s.cfg.crcAlgo = .isoHdlc → HasInput s [0x31#8, 0x32#8, 0x33#8, 0x34#8, 0x35#8, 0x36#8, 0x37#8, 0x38#8, 0x39#8] →
    ∃ t, exec .crc32 s = .next t ∧ t.resp.status = some 0#3 ∧ t.resp.crc = some 0xCBF43926#32

/-- R151: the bit-serial reflected form equals the catalogue form (polynomial 0x04C11DB7, most significant bit first, input
and output reflected) on every byte string, with the catalogue's check value and the CRC of the empty string. -/
def Obligations.CatalogueCrcAgrees : Prop :=
  (∀ s : List Byte, crcIsoHdlc s = catalogueCrc s) ∧
  crcIsoHdlc [0x31#8, 0x32#8, 0x33#8, 0x34#8, 0x35#8, 0x36#8, 0x37#8, 0x38#8, 0x39#8] = 0xCBF43926#32 ∧
  crcIsoHdlc [] = 0x00000000#32

/- ## ENCODE_DATA -/

/-- R111, R112: ENCODE_DATA. BAD_OPERAND for a kind that is not DATA or FILE, then for a length above 65535 or above what
OUTBUF holds, with nothing else written; otherwise the frame `sequenceID ∥ nextSequenceID ∥ kind ∥ payloadLength ∥ payload ∥
checksum`, the checksum's last byte incremented modulo 256 when INJECT = 1; a fault where it reads ⊥. -/
def Obligations.EncodeDataSemantics : Prop :=
  ∀ s : State,
    (∀ k, s.req.kind = some k → k ≠ 0x00#8 → k ≠ 0x02#8 →
      exec .encodeData s = .next { s with busy := false, respValid := true, resp :=
        { Response.blank with status := some 3#3 } }) ∧
    (∀ k n, s.req.kind = some k → k = 0x00#8 ∨ k = 0x02#8 → s.req.inlen = some n → 65535 < n ∨ s.cfg.bufBytes < 23 + n →
      exec .encodeData s = .next { s with busy := false, respValid := true, resp :=
        { Response.blank with status := some 3#3 } }) ∧
    (∀ k seq next p inject, s.req.kind = some k → k = 0x00#8 ∨ k = 0x02#8 → HasInput s p → p.length ≤ 65535 →
      23 + p.length ≤ s.cfg.bufBytes → s.req.seq = some seq → s.req.next = some next → s.req.inject = some inject →
      exec .encodeData s = .next { s with busy := false, respValid := true, resp :=
        { Response.blank with
          status := some 0#3, outlen := some (23 + p.length),
          outbuf :=
            let body := bytesBE 8 seq.toNat ++ bytesBE 8 next.toNat ++ [k] ++ bytesBE 2 p.length ++ p
            let c := (crc32 s.cfg body).toNat
            let last : Byte := if inject then BitVec.ofNat 8 c + 1#8 else BitVec.ofNat 8 c
            Memory.ofBytes 0 (body ++ bytesBE 3 (c / 256) ++ [last]) } }) ∧
    (s.req.kind = none → exec .encodeData s = .fault (.unwrittenOperand .kind)) ∧
    (∀ k, s.req.kind = some k → k = 0x00#8 ∨ k = 0x02#8 → s.req.inlen = none →
      exec .encodeData s = .fault (.unwrittenOperand .inlen)) ∧
    (∀ k n, s.req.kind = some k → k = 0x00#8 ∨ k = 0x02#8 → s.req.inlen = some n → n ≤ 65535 → 23 + n ≤ s.cfg.bufBytes →
      s.req.seq = none ∨ s.req.next = none ∨ s.req.inject = none ∨ (∃ a, a < n ∧ Memory.read s.req.inbuf a = none) →
      ∃ o, exec .encodeData s = .fault (.unwrittenOperand o) ∧ operandUnwritten s.req o)

/-- R163: with INJECT = 1 only the last byte of the frame differs from the frame with INJECT = 0, by +1 modulo 256, and the
stored checksum is `(c AND 0xFFFFFF00) OR ((c[7:0] + 1) mod 256)` for the true CRC c. -/
def Obligations.InjectionBumpsLastByte : Prop :=
  ∀ (s clean : State) (frame plain : List Byte), s.req.inject = some true →
    clean = { s with req := { s.req with inject := some false } } → EncodesData s frame → EncodesData clean plain →
    frame.length = plain.length ∧
    (∀ a, a + 1 < plain.length → frame[a]? = plain[a]?) ∧
    (∃ b, plain[plain.length - 1]? = some b ∧ frame[plain.length - 1]? = some (b + 1#8)) ∧
    BitVec.ofNat 32 (beNat (frame.drop (frame.length - 4))) = bumpedChecksum (crc32 s.cfg (frame.take (frame.length - 4)))

/-- R62, R83, R153: the layout of the frame that ENCODE_DATA builds with INJECT = 0, read byte by byte at the offsets of R83,
each field's most significant byte first. -/
def Obligations.EncodedDataFrameLayout : Prop :=
  ∀ (s : State) (k : Byte) (seq next : Id) (p : List Byte), s.req.kind = some k → k = 0x00#8 ∨ k = 0x02#8 → HasInput s p →
    p.length ≤ 65535 → 23 + p.length ≤ s.cfg.bufBytes → s.req.seq = some seq → s.req.next = some next →
    s.req.inject = some false →
    ∃ t, exec .encodeData s = .next t ∧ t.resp.outlen = some (23 + p.length) ∧
      (∀ i, i < 8 → Memory.read t.resp.outbuf i = some (seq.extractLsb' (8 * (7 - i)) 8)) ∧
      (∀ i, i < 8 → Memory.read t.resp.outbuf (8 + i) = some (next.extractLsb' (8 * (7 - i)) 8)) ∧
      Memory.read t.resp.outbuf 16 = some k ∧
      Memory.read t.resp.outbuf 17 = some (BitVec.ofNat 8 (p.length / 256)) ∧
      Memory.read t.resp.outbuf 18 = some (BitVec.ofNat 8 (p.length % 256)) ∧
      (∀ i, i < p.length → Memory.read t.resp.outbuf (19 + i) = p[i]?) ∧
      (∃ covered : List Byte, covered.length = 19 + p.length ∧ BufferHolds t.resp.outbuf 0 covered ∧
        ∀ i, i < 4 → Memory.read t.resp.outbuf (19 + p.length + i) =
          some ((crc32 s.cfg covered).extractLsb' (8 * (3 - i)) 8)) ∧
      (∀ a, 23 + p.length ≤ a → Memory.read t.resp.outbuf a = none)

/- ## ENCODE_CONTROL -/

/-- R116, R117: ENCODE_CONTROL. A 25-byte frame with requestedID for REQUEST and SUCCESS, a 17-byte frame for the handshake
kinds, BAD_OPERAND with nothing else written for any other kind, a fault where KIND, or REQID when it is read, is ⊥. -/
def Obligations.EncodeControlSemantics : Prop :=
  ∀ s : State,
    (∀ k id, s.req.kind = some k → k = 0x01#8 ∨ k = 0xC8#8 → s.req.reqid = some id →
      exec .encodeControl s = .next { s with busy := false, respValid := true, resp :=
        { Response.blank with
          status := some 0#3, outlen := some 25,
          outbuf := Memory.ofBytes 0 (List.replicate 16 0#8 ++ [k] ++ bytesBE 8 id.toNat) } }) ∧
    (∀ k, s.req.kind = some k → k = 0xFE#8 ∨ k = 0xFF#8 →
      exec .encodeControl s = .next { s with busy := false, respValid := true, resp :=
        { Response.blank with
          status := some 0#3, outlen := some 17, outbuf := Memory.ofBytes 0 (List.replicate 16 0#8 ++ [k]) } }) ∧
    (∀ k, s.req.kind = some k → k ≠ 0x01#8 → k ≠ 0xC8#8 → k ≠ 0xFE#8 → k ≠ 0xFF#8 →
      exec .encodeControl s = .next { s with busy := false, respValid := true, resp :=
        { Response.blank with status := some 3#3 } }) ∧
    (s.req.kind = none → exec .encodeControl s = .fault (.unwrittenOperand .kind)) ∧
    (∀ k, s.req.kind = some k → k = 0x01#8 ∨ k = 0xC8#8 → s.req.reqid = none →
      exec .encodeControl s = .fault (.unwrittenOperand .reqid))

/- ## DECODE and the frame kinds -/

/-- R83, R121: DECODE of a data/file frame, whatever its checksum, writes its fields and payload; so does the row of its
kind, FRAME_DATA or FRAME_FILE (log entry 11). -/
def Obligations.DecodeDataFileFields : Prop :=
  ∀ (s : State) (i : Instr) (k : Byte) (seq next : Id) (p : List Byte) (checksum : Crc),
    (k = 0x00#8 ∨ k = 0x02#8) → i = .decode ∨ (k = 0x00#8 ∧ i = .frameData) ∨ (k = 0x02#8 ∧ i = .frameFile) →
    p.length ≤ 65535 →
    HasInput s (bytesBE 8 seq.toNat ++ bytesBE 8 next.toNat ++ [k] ++ bytesBE 2 p.length ++ p ++ bytesBE 4 checksum.toNat) →
    exec i s = .next { s with busy := false, respValid := true, resp :=
      { Response.blank with
        status := some 0#3, outlen := some p.length, outbuf := Memory.ofBytes 0 p, dKind := some k, dSeq := some seq,
        dNext := some next, dLen := some (BitVec.ofNat 16 p.length), dChecksum := some checksum } }

/-- R11, R12, R84, R121: DECODE of a REQUEST or SUCCESS frame whose length and zero fields the policies accept writes D_KIND,
D_REQID and OUTLEN = 0; so does the row of its kind (log entry 11). Only the kind byte and bytes 17 to 24 need be written under IGNORE. -/
def Obligations.DecodeControlIdFields : Prop :=
  ∀ (s : State) (i : Instr) (k : Byte) (id : Id) (n : Nat),
    (k = 0x01#8 ∨ k = 0xC8#8) → i = .decode ∨ (k = 0x01#8 ∧ i = .frameRequest) ∨ (k = 0xC8#8 ∧ i = .frameSuccess) →
    s.req.inlen = some n → (s.cfg.lenPolicy = .exact ∧ n = 25) ∨ (s.cfg.lenPolicy = .atLeast ∧ 25 ≤ n) →
    s.cfg.zeroPolicy = .ignore ∨ BufferHolds s.req.inbuf 0 (List.replicate 16 0#8) →
    Memory.read s.req.inbuf 16 = some k → BufferHolds s.req.inbuf 17 (bytesBE 8 id.toNat) →
    exec i s = .next { s with busy := false, respValid := true, resp :=
      { Response.blank with
        status := some 0#3, outlen := some 0, dKind := some k, dReqid := some id } }

/-- R11, R12, R85, R121: DECODE of a handshake frame whose length and zero fields the policies accept writes D_KIND and
OUTLEN = 0; so does the row of its kind (log entry 11). -/
def Obligations.DecodeHandshakeFields : Prop :=
  ∀ (s : State) (i : Instr) (k : Byte) (n : Nat),
    (k = 0xFE#8 ∨ k = 0xFF#8) →
    i = .decode ∨ (k = 0xFE#8 ∧ i = .frameHandshakeAck) ∨ (k = 0xFF#8 ∧ i = .frameHandshakeRequest) →
    s.req.inlen = some n → (s.cfg.lenPolicy = .exact ∧ n = 17) ∨ (s.cfg.lenPolicy = .atLeast ∧ 17 ≤ n) →
    s.cfg.zeroPolicy = .ignore ∨ BufferHolds s.req.inbuf 0 (List.replicate 16 0#8) →
    Memory.read s.req.inbuf 16 = some k →
    exec i s = .next { s with busy := false, respValid := true, resp :=
      { Response.blank with status := some 0#3, outlen := some 0, dKind := some k } }

/-- R88, R183: DECODE of a datagram of at least 17 bytes with an unknown kind byte gives UNKNOWN_KIND and nothing else; so
does the row FRAME_UNKNOWN (log entry 11). -/
def Obligations.UnknownKindDropped : Prop :=
  ∀ (s : State) (i : Instr) (k : Byte) (n : Nat), (Instr.frameUnknown k).wf = true → i = .decode ∨ i = .frameUnknown k →
    s.req.inlen = some n → 17 ≤ n → Memory.read s.req.inbuf 16 = some k →
    exec i s = .next { s with busy := false, respValid := true, resp := { Response.blank with status := some 2#3 } }

/-- R121, R122: DECODE's checks in their order, each giving its status and nothing else: (1) below 17 bytes; (3) a data/file
kind below 23 bytes; (4) a payloadLength that does not fit the datagram; (5) a control length that breaks the policy; (6) a
zero field that is not zero, under REQUIRE_ZERO. (Check (2) is `UnknownKindDropped`.) -/
def Obligations.DecodeRejectsInOrder : Prop :=
  ∀ (s : State) (n : Nat), s.req.inlen = some n →
    (n < 17 → exec .decode s = .next { s with busy := false, respValid := true, resp :=
      { Response.blank with status := some 1#3 } }) ∧
    (17 ≤ n → ∀ k, Memory.read s.req.inbuf 16 = some k → k = 0x00#8 ∨ k = 0x02#8 →
      n < 23 ∨ (∃ len, len < 65536 ∧ BufferHolds s.req.inbuf 17 (bytesBE 2 len) ∧ 19 + len + 4 ≠ n) →
      exec .decode s = .next { s with busy := false, respValid := true, resp :=
        { Response.blank with status := some 1#3 } }) ∧
    (17 ≤ n → ∀ k need, Memory.read s.req.inbuf 16 = some k →
      ((k = 0x01#8 ∨ k = 0xC8#8) ∧ need = 25) ∨ ((k = 0xFE#8 ∨ k = 0xFF#8) ∧ need = 17) →
      (s.cfg.lenPolicy = .exact ∧ n ≠ need) ∨ n < need →
      exec .decode s = .next { s with busy := false, respValid := true, resp :=
        { Response.blank with status := some 1#3 } }) ∧
    (∀ k need zeros, Memory.read s.req.inbuf 16 = some k →
      ((k = 0x01#8 ∨ k = 0xC8#8) ∧ need = 25) ∨ ((k = 0xFE#8 ∨ k = 0xFF#8) ∧ need = 17) →
      n = need ∨ (s.cfg.lenPolicy = .atLeast ∧ need ≤ n) → s.cfg.zeroPolicy = .requireZero →
      List.length zeros = 16 → BufferHolds s.req.inbuf 0 zeros → zeros ≠ List.replicate 16 0#8 →
      exec .decode s = .next { s with busy := false, respValid := true, resp :=
        { Response.blank with status := some 1#3 } })

/-- R123, with the order of reads of log entries 9 and 17: where DECODE faults: INLEN ⊥; byte 16 ⊥ once the datagram has 17 bytes; any byte of a data/file datagram that passed
the length rule, and byte 17 or 18 once it has 23 bytes; bytes 17 to 24 of a REQUEST or SUCCESS; bytes 0 to 15 of a control frame under REQUIRE_ZERO. -/
def Obligations.DecodeFaults : Prop :=
  ∀ s : State,
    (s.req.inlen = none → exec .decode s = .fault (.unwrittenOperand .inlen)) ∧
    (∀ n, s.req.inlen = some n → 17 ≤ n →
      (Memory.read s.req.inbuf 16 = none → exec .decode s = .fault (.unwrittenOperand (.inbuf 16))) ∧
      (∀ k, Memory.read s.req.inbuf 16 = some k → k = 0x00#8 ∨ k = 0x02#8 → 23 ≤ n →
        BufferHolds s.req.inbuf 17 (bytesBE 2 (n - 23)) → n - 23 < 65536 →
        (∃ a, a < n ∧ Memory.read s.req.inbuf a = none) →
        ∃ a, exec .decode s = .fault (.unwrittenOperand (.inbuf a)) ∧ a < n ∧ Memory.read s.req.inbuf a = none) ∧
      (∀ k, Memory.read s.req.inbuf 16 = some k → k = 0x00#8 ∨ k = 0x02#8 → 23 ≤ n →
        (∃ a, (a = 17 ∨ a = 18) ∧ Memory.read s.req.inbuf a = none) →
        ∃ a, exec .decode s = .fault (.unwrittenOperand (.inbuf a)) ∧ (a = 17 ∨ a = 18) ∧
          Memory.read s.req.inbuf a = none) ∧
      (∀ k, Memory.read s.req.inbuf 16 = some k → k = 0x01#8 ∨ k = 0xC8#8 →
        n = 25 ∨ (s.cfg.lenPolicy = .atLeast ∧ 25 ≤ n) →
        s.cfg.zeroPolicy = .ignore ∨ BufferHolds s.req.inbuf 0 (List.replicate 16 0#8) →
        (∃ a, 17 ≤ a ∧ a < 25 ∧ Memory.read s.req.inbuf a = none) →
        ∃ a, exec .decode s = .fault (.unwrittenOperand (.inbuf a)) ∧ 17 ≤ a ∧ a < 25 ∧ Memory.read s.req.inbuf a = none) ∧
      (∀ k need, Memory.read s.req.inbuf 16 = some k →
        ((k = 0x01#8 ∨ k = 0xC8#8) ∧ need = 25) ∨ ((k = 0xFE#8 ∨ k = 0xFF#8) ∧ need = 17) →
        n = need ∨ (s.cfg.lenPolicy = .atLeast ∧ need ≤ n) → s.cfg.zeroPolicy = .requireZero →
        (∃ a, a < 16 ∧ Memory.read s.req.inbuf a = none) →
        ∃ a, exec .decode s = .fault (.unwrittenOperand (.inbuf a)) ∧ a < 16 ∧ Memory.read s.req.inbuf a = none))

/-- R128: for every INLEN ≤ BUF_BYTES and every content of the bytes DECODE reads, the other bytes ⊥ or not, DECODE completes with
exactly one of OK, MALFORMED and UNKNOWN_KIND, and a state with the same INLEN and the same content of those bytes gives the same
response. -/
def Obligations.DecodeTotal : Prop :=
  ∀ (s : State) (n : Nat), s.req.inlen = some n → n ≤ s.cfg.bufBytes →
    (∀ a, DecodeReads s.cfg s.req.inbuf n a → Memory.read s.req.inbuf a ≠ none) →
    ∃ t, exec .decode s = .next t ∧
      (t.resp.status = some 0#3 ∨ t.resp.status = some 1#3 ∨ t.resp.status = some 2#3) ∧
      ∀ s' : State, s'.cfg = s.cfg → s'.req.inlen = some n →
        (∀ a, DecodeReads s.cfg s.req.inbuf n a → Memory.read s'.req.inbuf a = Memory.read s.req.inbuf a) →
        ∃ t', exec .decode s' = .next t' ∧ t'.resp = t.resp

/- ## VALIDATE -/

/-- R159, R160: VALIDATE. MALFORMED below 17 bytes; UNKNOWN_KIND; BAD_OPERAND for a control kind; MALFORMED for a data/file
datagram that fails the length rule; otherwise OK with the computed CRC and the verdict; a fault where it reads ⊥. -/
def Obligations.ValidateSemantics : Prop :=
  ∀ s : State,
    (s.req.inlen = none → exec .validate s = .fault (.unwrittenOperand .inlen)) ∧
    (∀ n, s.req.inlen = some n →
      (n < 17 → exec .validate s = .next { s with busy := false, respValid := true, resp :=
        { Response.blank with status := some 1#3 } }) ∧
      (17 ≤ n → Memory.read s.req.inbuf 16 = none → exec .validate s = .fault (.unwrittenOperand (.inbuf 16))) ∧
      (17 ≤ n → ∀ k, Memory.read s.req.inbuf 16 = some k →
        (k ∉ knownKinds → exec .validate s = .next { s with busy := false, respValid := true, resp :=
          { Response.blank with status := some 2#3 } }) ∧
        (k = 0x01#8 ∨ k = 0xC8#8 ∨ k = 0xFE#8 ∨ k = 0xFF#8 →
          exec .validate s = .next { s with busy := false, respValid := true, resp :=
            { Response.blank with status := some 3#3 } }) ∧
        (k = 0x00#8 ∨ k = 0x02#8 →
          n < 23 ∨ (∃ len, len < 65536 ∧ BufferHolds s.req.inbuf 17 (bytesBE 2 len) ∧ 19 + len + 4 ≠ n) →
          exec .validate s = .next { s with busy := false, respValid := true, resp :=
            { Response.blank with status := some 1#3 } }) ∧
        (k = 0x00#8 ∨ k = 0x02#8 → 23 ≤ n → n - 23 < 65536 → BufferHolds s.req.inbuf 17 (bytesBE 2 (n - 23)) →
          (∃ a, a < n ∧ Memory.read s.req.inbuf a = none) →
          ∃ a, exec .validate s = .fault (.unwrittenOperand (.inbuf a)) ∧ a < n ∧ Memory.read s.req.inbuf a = none) ∧
        (k = 0x00#8 ∨ k = 0x02#8 → 23 ≤ n →
          (∃ a, (a = 17 ∨ a = 18) ∧ Memory.read s.req.inbuf a = none) →
          ∃ a, exec .validate s = .fault (.unwrittenOperand (.inbuf a)) ∧ (a = 17 ∨ a = 18) ∧
            Memory.read s.req.inbuf a = none))) ∧
    (∀ (k : Byte) (covered received : List Byte), HasInput s (covered ++ received) → received.length = 4 →
      covered[16]? = some k → k = 0x00#8 ∨ k = 0x02#8 →
      (∃ len, len < 65536 ∧ covered.length = 19 + len ∧ covered[17]? = (bytesBE 2 len)[0]? ∧
        covered[18]? = (bytesBE 2 len)[1]?) →
      exec .validate s = .next { s with busy := false, respValid := true, resp :=
        { Response.blank with
          status := some 0#3, crc := some (crc32 s.cfg covered),
          crcOk := some (decide ((crc32 s.cfg covered).toNat = beNat received)) } })

/- ## Reserved codes -/

/-- R82: the command codes 5, 6 and 7 read no register and complete with STATUS = ILLEGAL_COMMAND and nothing else, in every
state, so whatever is ⊥; every other code is one of the five commands, so no code is a hint or a custom command. -/
def Obligations.ReservedCodesIllegal : Prop :=
  (∀ (s : State) (c : Code), c = 5#3 ∨ c = 6#3 ∨ c = 7#3 →
    exec (decodeCommand c) s =
      .next { s with busy := false, respValid := true, resp := { Response.blank with status := some 4#3 } }) ∧
  (∀ (s : State) (i : Instr), i = .rsv5 ∨ i = .rsv6 ∨ i = .rsv7 →
    exec i s = .next { s with busy := false, respValid := true, resp := { Response.blank with status := some 4#3 } }) ∧
  (∀ c : Code, c ≠ 5#3 → c ≠ 6#3 → c ≠ 7#3 →
    decodeCommand c ∈ [Instr.crc32, .encodeData, .encodeControl, .decode, .validate])

/- ## All instructions -/

/-- R55: which response registers are defined after a completion, by command and outcome, with BUSY = 0 and RESP_VALID = 1,
and OUTBUF defined exactly at [0 .. OUTLEN); OUTLEN is 0 when DECODE accepts a control frame. -/
def Obligations.ResponseDefinedRegs : Prop :=
  ∀ (i : Instr) (s t : State), exec i s = .next t →
    t.busy = false ∧ t.respValid = true ∧ definedRegs t.resp = expectedRegs (commandCode i) t.resp ∧
    (∀ k, t.resp.dKind = some k → k ≠ 0x00#8 → k ≠ 0x02#8 → t.resp.outlen = some 0) ∧
    (∀ a, Memory.read t.resp.outbuf a ≠ none ↔ ∃ n, t.resp.outlen = some n ∧ a < n)

/-- R30, R39, R54: the frame of every instruction: a completion leaves the request registers, every INBUF byte, the
configuration, the fault record and the host's moves as they were. OUTBUF is written from address 0 on for the OUTLEN bytes
that the response gives, which is 23 + INLEN for ENCODE_DATA, 25 or 17 for ENCODE_CONTROL, and every byte outside is ⊥. -/
def Obligations.CompletionFrame : Prop :=
  ∀ (i : Instr) (s t : State), exec i s = .next t →
    t.cfg = s.cfg ∧ t.req = s.req ∧ t.faultRecord = s.faultRecord ∧ t.hostMoves = s.hostMoves ∧
    (∀ a, Memory.read t.req.inbuf a = Memory.read s.req.inbuf a) ∧
    (∀ a, a ∉ List.range (t.resp.outlen.getD 0) → Memory.read t.resp.outbuf a = none) ∧
    (i = .encodeData → ∀ m, t.resp.outlen = some m → ∃ n, s.req.inlen = some n ∧ m = 23 + n) ∧
    (i = .encodeControl → ∀ m, t.resp.outlen = some m → m = 25 ∨ m = 17)

/-- R190: a command that completes with STATUS ≠ OK has written no response register but STATUS. -/
def Obligations.ErrorLeavesOnlyStatus : Prop :=
  ∀ (i : Instr) (s t : State), exec i s = .next t → t.resp.status ≠ some 0#3 →
    ∃ st, t.resp = { Response.blank with status := some st }

/-- R42, R181: every completion writes STATUS, with a code the table lists for its command; 5 to 7 are never written. -/
def Obligations.StatusPerCommand : Prop :=
  ∀ (i : Instr) (s t : State), exec i s = .next t →
    ∃ st, t.resp.status = some st ∧ st ∈ statusesOf (commandCode i) ∧ st.toNat ≤ 4

/-- R56: a completion stops only with the fault UNWRITTEN_OPERAND, naming an operand that is ⊥; it is never refused. -/
def Obligations.FaultsOnlyOnUnwritten : Prop :=
  ∀ (i : Instr) (s : State),
    (∀ r, exec i s ≠ .refused r) ∧
    (∀ f, exec i s = .fault f → ∃ o, f = .unwrittenOperand o ∧ operandUnwritten s.req o)

/-- R81: a command reads no register and no byte but those the table lists, for DECODE and VALIDATE the bytes their rules read: two
states that agree on those give the same fault or the same response. -/
def Obligations.ResponseDependsOnListedOperands : Prop :=
  ∀ s t : State, s.cfg = t.cfg →
    (s.req.inlen = t.req.inlen →
      (∀ n, s.req.inlen = some n → ∀ a, a < n → Memory.read s.req.inbuf a = Memory.read t.req.inbuf a) →
      SameResponse (exec .crc32 s) (exec .crc32 t)) ∧
    (s.req.inlen = t.req.inlen →
      (∀ n, s.req.inlen = some n → ∀ a, DecodeReads s.cfg s.req.inbuf n a →
        Memory.read s.req.inbuf a = Memory.read t.req.inbuf a) →
      SameResponse (exec .decode s) (exec .decode t)) ∧
    (s.req.inlen = t.req.inlen →
      (∀ n, s.req.inlen = some n → ∀ a, ValidateReads s.req.inbuf n a →
        Memory.read s.req.inbuf a = Memory.read t.req.inbuf a) →
      SameResponse (exec .validate s) (exec .validate t)) ∧
    (s.req.kind = t.req.kind →
      ((s.req.kind = some 0x00#8 ∨ s.req.kind = some 0x02#8) → s.req.inlen = t.req.inlen ∧
        ∀ n, s.req.inlen = some n → n ≤ 65535 → 23 + n ≤ s.cfg.bufBytes →
          s.req.seq = t.req.seq ∧ s.req.next = t.req.next ∧ s.req.inject = t.req.inject ∧
          ∀ a, a < n → Memory.read s.req.inbuf a = Memory.read t.req.inbuf a) →
      SameResponse (exec .encodeData s) (exec .encodeData t)) ∧
    (s.req.kind = t.req.kind →
      ((s.req.kind = some 0x01#8 ∨ s.req.kind = some 0xC8#8) → s.req.reqid = t.req.reqid) →
      SameResponse (exec .encodeControl s) (exec .encodeControl t)) ∧
    (∀ i, i = .rsv5 ∨ i = .rsv6 ∨ i = .rsv7 → SameResponse (exec i s) (exec i t))

/-- R67: issuing a completed command again, with the same request registers, gives the same response again. -/
def Obligations.ReissueRepeatsResponse : Prop :=
  ∀ (s t : State) (c : Code), s.busy = true → s.faultRecord = none → s.hostMoves = [] → s.req.cmd = some c →
    step s = .next t →
    run 2 (t.withMoves [.writeCmd c]) = .next t

/- ## Laws of the codec and the validator -/

/-- R126: the round trip of data/file frames. -/
def Obligations.DataRoundTrip : Prop :=
  ∀ (e s : State) (frame : List Byte), EncodesData e frame → HasInput s frame →
    ∃ t p, exec .decode s = .next t ∧ HasInput e p ∧ t.resp.status = some 0#3 ∧ t.resp.dKind = e.req.kind ∧
      t.resp.dSeq = e.req.seq ∧ t.resp.dNext = e.req.next ∧ t.resp.dLen.map BitVec.toNat = some p.length ∧
      t.resp.outlen = some p.length ∧ t.resp.outbuf = Memory.ofBytes 0 p ∧
      (e.req.inject = some false → t.resp.dChecksum = some (crc32 e.cfg (frame.take (19 + p.length)))) ∧
      (e.req.inject = some true → t.resp.dChecksum = some (bumpedChecksum (crc32 e.cfg (frame.take (19 + p.length)))))

/-- R127: the round trip of control frames, under every value of both policies. -/
def Obligations.ControlRoundTrip : Prop :=
  ∀ (e s : State) (frame : List Byte), EncodesControl e frame → HasInput s frame →
    ∃ t, exec .decode s = .next t ∧ t.resp.status = some 0#3 ∧ t.resp.dKind = e.req.kind ∧
      (e.req.kind = some 0x01#8 ∨ e.req.kind = some 0xC8#8 → t.resp.dReqid = e.req.reqid)

/-- R129: under the default policies, a datagram that DECODE accepts as a data/file frame is what ENCODE_DATA builds from the
decoded fields with INJECT matching its checksum, if its checksum is the CRC or the incremented CRC, and is built by no
ENCODE_DATA if it is neither; a datagram accepted as a control frame, its zero fields 0, is what ENCODE_CONTROL builds. -/
def Obligations.DecodeInvertsEncode : Prop :=
  ∀ (s t : State) (frame : List Byte), s.cfg.lenPolicy = .exact → s.cfg.zeroPolicy = .ignore → HasInput s frame →
    frame.length ≤ s.cfg.bufBytes → exec .decode s = .next t → t.resp.status = some 0#3 →
    (t.resp.dKind = some 0x00#8 ∨ t.resp.dKind = some 0x02#8 →
      ∃ p, t.resp.outbuf = Memory.ofBytes 0 p ∧
        (∀ e inject, e.cfg = s.cfg → e.req.seq = t.resp.dSeq → e.req.next = t.resp.dNext → e.req.kind = t.resp.dKind →
          HasInput e p → e.req.inject = some inject →
          t.resp.dChecksum = some (if inject then bumpedChecksum (crc32 s.cfg (frame.take (19 + p.length)))
            else crc32 s.cfg (frame.take (19 + p.length))) →
          EncodesData e frame) ∧
        (t.resp.dChecksum ≠ some (crc32 s.cfg (frame.take (19 + p.length))) →
          t.resp.dChecksum ≠ some (bumpedChecksum (crc32 s.cfg (frame.take (19 + p.length)))) →
          ∀ e, e.cfg = s.cfg → ¬ EncodesData e frame)) ∧
    (t.resp.dKind = some 0x01#8 ∨ t.resp.dKind = some 0xC8#8 ∨ t.resp.dKind = some 0xFE#8 ∨ t.resp.dKind = some 0xFF#8 →
      frame.take 16 = List.replicate 16 0#8 →
      ∀ e, e.req.kind = t.resp.dKind →
        ((t.resp.dKind = some 0x01#8 ∨ t.resp.dKind = some 0xC8#8) → e.req.reqid = t.resp.dReqid) → EncodesControl e frame)

/-- R166: a frame that ENCODE_DATA builds with INJECT = 0 passes VALIDATE, with CRC its checksum, under every CRC_ALGO. -/
def Obligations.CleanFramesValidate : Prop :=
  ∀ (e s : State) (frame : List Byte), EncodesData e frame → e.req.inject = some false → s.cfg.crcAlgo = e.cfg.crcAlgo →
    HasInput s frame →
    ∃ t, exec .validate s = .next t ∧ t.resp.status = some 0#3 ∧ t.resp.crcOk = some true ∧
      t.resp.crc.map BitVec.toNat = some (beNat (frame.drop (frame.length - 4)))

/-- R164: a frame that ENCODE_DATA builds with INJECT = 1 fails VALIDATE, under every CRC_ALGO. -/
def Obligations.InjectedFramesFailValidation : Prop :=
  ∀ (e s : State) (frame : List Byte), EncodesData e frame → e.req.inject = some true → s.cfg.crcAlgo = e.cfg.crcAlgo →
    HasInput s frame →
    ∃ t, exec .validate s = .next t ∧ t.resp.status = some 0#3 ∧ t.resp.crcOk = some false

/-- R167: where VALIDATE agrees with DECODE. -/
def Obligations.ValidateAgreesWithDecode : Prop :=
  ∀ (s : State) (bs : List Byte), HasInput s bs →
    ∃ d v, exec .decode s = .next d ∧ exec .validate s = .next v ∧
      (bs.length < 17 ∨ (17 ≤ bs.length ∧ (bs[16]? = some 0x00#8 ∨ bs[16]? = some 0x02#8)) →
        (d.resp.status = some 1#3 ↔ v.resp.status = some 1#3) ∧ (d.resp.status = some 0#3 ↔ v.resp.status = some 0#3)) ∧
      (∀ k, bs[16]? = some k → k ∉ knownKinds → d.resp.status = some 2#3 ∧ v.resp.status = some 2#3) ∧
      (∀ k, bs[16]? = some k → k = 0x01#8 ∨ k = 0xC8#8 ∨ k = 0xFE#8 ∨ k = 0xFF#8 → v.resp.status = some 3#3)

/-- R161: VALIDATE of a frame that ENCODE_DATA built with INJECT = 0, one byte of it changed to a different value. The rows over
covered bytes are for the default CRC_ALGO, as the rule says; the other rows are for every CRC_ALGO. -/
def Obligations.SingleByteChange : Prop :=
  ∀ (e s : State) (frame : List Byte) (j : Nat) (b : Byte), EncodesData e frame → e.req.inject = some false →
    s.cfg.crcAlgo = e.cfg.crcAlgo → j < frame.length → frame[j]? ≠ some b → HasInput s (frame.set j b) →
    ∃ t, exec .validate s = .next t ∧
      (j < 16 → t.resp.status = some 0#3 ∧ (s.cfg.crcAlgo = .isoHdlc → t.resp.crcOk = some false)) ∧
      (j = 16 → b = 0x00#8 ∨ b = 0x02#8 →
        t.resp.status = some 0#3 ∧ (s.cfg.crcAlgo = .isoHdlc → t.resp.crcOk = some false)) ∧
      (j = 16 → b = 0x01#8 ∨ b = 0xC8#8 ∨ b = 0xFE#8 ∨ b = 0xFF#8 → t.resp.status = some 3#3) ∧
      (j = 16 → b ∉ knownKinds → t.resp.status = some 2#3) ∧
      (j = 17 ∨ j = 18 → t.resp.status = some 1#3) ∧
      (19 ≤ j → j + 4 < frame.length →
        t.resp.status = some 0#3 ∧ (s.cfg.crcAlgo = .isoHdlc → t.resp.crcOk = some false)) ∧
      (frame.length ≤ j + 4 → t.resp.status = some 0#3 ∧ t.resp.crcOk = some false)

/- ## The invariant -/

/-- R8, R38, R39, R45, R46, R53, R54, R55: every step, the host's moves and reset among them, keeps the invariant: request
registers in range, buffers canonical, OUTLEN within OUTBUF, nothing valid while a command is pending, everything ⊥ while no
response is valid, and a valid response as R55 lists it for the command in CMD. -/
def Obligations.StepKeepsInvariant : Prop :=
  ∀ s t : State, s.inv = true → step s = .next t → t.inv = true

/-- R210, R213: the state after reset meets the invariant, and so does every state a reset leaves. -/
def Obligations.ResetMeetsInvariant : Prop :=
  State.reset.inv = true ∧ ∀ s : State, s.cfg.wf = true → s.resetEvent.inv = true

/- ## Grouped reads of OUTBUF -/

/-- R56, R65, R67, R217: the host reads OUTBUF in any grouping. A read of OUTBUF bytes that hold a byte string gives the string
and changes nothing but that the move is taken; where a byte is ⊥ or RESP_VALID = 0 the read is the fault UNWRITTEN_RESPONSE of
the first such byte; and a read of n + m bytes gives what a read of n bytes and then one of the m bytes after them give. Those rules
name no byte of a grouped read: that the fault is that of the FIRST byte that faults is the model's choice (log entry 12), and so is
that `hostReadOutbuf` is what the read gives the host, the move leaving no record (log entry 16). -/
def Obligations.ReadGrouping : Prop :=
  ∀ (s : State) (a n : Nat) (rest : List HostMove), s.hostMoves = .readOutbuf a n :: rest → s.faultRecord = none →
    a + n ≤ s.cfg.bufBytes →
    (s.respValid = true → ∀ bs : List Byte, bs.length = n → BufferHolds s.resp.outbuf a bs →
      hostReadOutbuf s a n = .ok (bs.map BitVec.toNat) ∧ step s = .next { s with hostMoves := rest }) ∧
    (s.respValid = true → ∀ i, i < n → Memory.read s.resp.outbuf (a + i) = none →
      (∀ j, j < i → Memory.read s.resp.outbuf (a + j) ≠ none) →
      step s = .fault (.unwrittenResponse (.outbuf (a + i)))) ∧
    (s.respValid = false → 0 < n → step s = .fault (.unwrittenResponse (.outbuf a))) ∧
    (∀ p q vs, p + q = n →
      (hostReadOutbuf s a n = .ok vs ↔
        ∃ xs ys, hostReadOutbuf s a p = .ok xs ∧ hostReadOutbuf s (a + p) q = .ok ys ∧ vs = xs ++ ys))
end

