-- ==== Sys2Proof/Laws/Bytes.lean ====
section
/-! SUPPORT. be_N and bytes_N are inverse to each other (R15), and what error injection does to a string (R163). -/

namespace Sys2Proof.Machine

@[simp] theorem bytesBE_length (n v : Nat) : (bytesBE n v).length = n := by
  induction n with
  | zero => rfl
  | succ n ih => simp [bytesBE, ih]

@[simp] theorem bytesBE_zero (v : Nat) : bytesBE 0 v = [] := rfl

/-- Byte i of bytes_n(v), most significant byte first (R62). -/
theorem bytesBE_getElem {n v i : Nat} (h : i < (bytesBE n v).length) :
    (bytesBE n v)[i] = BitVec.ofNat 8 (v / 256 ^ (n - 1 - i)) := by
  induction n generalizing i with
  | zero => simp at h
  | succ n ih =>
    cases i with
    | zero => simp [bytesBE]
    | succ i =>
      simp only [bytesBE, List.getElem_cons_succ]
      have h' : i < (bytesBE n v).length := by simpa using h
      rw [ih h']
      congr 3
      omega

theorem beNat_foldl (s : List Byte) (acc : Nat) :
    s.foldl (fun acc b => acc * 256 + b.toNat) acc = acc * 256 ^ s.length + beNat s := by
  induction s generalizing acc with
  | nil => simp [beNat]
  | cons b s ih =>
    have h : beNat (b :: s) = s.foldl (fun acc b => acc * 256 + b.toNat) (0 * 256 + b.toNat) := rfl
    rw [List.foldl_cons, ih, h, ih, List.length_cons, Nat.pow_succ]
    ring

@[simp] theorem beNat_nil : beNat [] = 0 := rfl

theorem beNat_cons (b : Byte) (s : List Byte) : beNat (b :: s) = b.toNat * 256 ^ s.length + beNat s := by
  have h : beNat (b :: s) = s.foldl (fun acc b => acc * 256 + b.toNat) (0 * 256 + b.toNat) := rfl
  rw [h, beNat_foldl, Nat.zero_mul, Nat.zero_add]

theorem beNat_append (s t : List Byte) : beNat (s ++ t) = beNat s * 256 ^ t.length + beNat t := by
  induction s with
  | nil => simp
  | cons b s ih =>
    simp only [List.cons_append, beNat_cons, ih, List.length_append, Nat.pow_add]
    ring

theorem beNat_lt (s : List Byte) : beNat s < 256 ^ s.length := by
  induction s with
  | nil => simp
  | cons b s ih =>
    rw [beNat_cons, List.length_cons, Nat.pow_succ]
    have hb : b.toNat ≤ 255 := by have := b.isLt; omega
    nlinarith [Nat.mul_le_mul_right (256 ^ s.length) hb]

/-- be_n of bytes_n(v) is v modulo 256^n. -/
theorem beNat_bytesBE_mod (n v : Nat) : beNat (bytesBE n v) = v % 256 ^ n := by
  induction n with
  | zero => simp [Nat.mod_one]
  | succ n ih =>
    rw [bytesBE, beNat_cons, ih, bytesBE_length, Nat.pow_succ, Nat.mod_mul, BitVec.toNat_ofNat]
    norm_num
    ring

/-- be_n is the inverse of bytes_n on the values that fit (R15). -/
theorem beNat_bytesBE {n v : Nat} (h : v < 256 ^ n) : beNat (bytesBE n v) = v := by
  rw [beNat_bytesBE_mod, Nat.mod_eq_of_lt h]

theorem beNat_inj {s t : List Byte} (hl : s.length = t.length) (h : beNat s = beNat t) : s = t := by
  induction s generalizing t with
  | nil => cases t <;> simp_all
  | cons b s ih =>
    cases t with
    | nil => simp at hl
    | cons c t =>
      simp only [List.length_cons, Nat.add_right_cancel_iff] at hl
      rw [beNat_cons, beNat_cons, ← hl] at h
      have hs := beNat_lt s
      have ht := beNat_lt t
      rw [← hl] at ht
      have hpos : 0 < 256 ^ s.length := Nat.pow_pos (by omega)
      have e1 : b.toNat = c.toNat := by
        have := congrArg (· / 256 ^ s.length) h
        simpa [Nat.mul_comm _ (256 ^ s.length), Nat.mul_add_div hpos, Nat.div_eq_of_lt hs, Nat.div_eq_of_lt ht] using this
      have e2 : beNat s = beNat t := by rw [e1] at h; omega
      rw [BitVec.eq_of_toNat_eq e1, ih hl e2]

/-- bytes_n is the inverse of be_n on strings of n bytes (R15). -/
theorem bytesBE_beNat {s : List Byte} {n : Nat} (h : s.length = n) : bytesBE n (beNat s) = s := by
  apply beNat_inj (by simp [h])
  rw [beNat_bytesBE_mod, Nat.mod_eq_of_lt]
  exact h ▸ beNat_lt s

theorem beNat_bytesBE_id (v : Id) : beNat (bytesBE 8 v.toNat) = v.toNat :=
  beNat_bytesBE (by have := v.isLt; omega)

theorem beNat_bytesBE_crc (v : Crc) : beNat (bytesBE 4 v.toNat) = v.toNat :=
  beNat_bytesBE (by have := v.isLt; omega)

@[simp] theorem bumpLast_length (s : List Byte) : (bumpLast s).length = s.length := by
  induction s with
  | nil => rfl
  | cons b s ih => cases s with
    | nil => rfl
    | cons c s => simpa [bumpLast] using ih

/-- Error injection changes the last byte alone (R163). -/
theorem bumpLast_append_singleton (s : List Byte) (b : Byte) : bumpLast (s ++ [b]) = s ++ [b + 1#8] := by
  induction s with
  | nil => rfl
  | cons c s ih =>
    cases s with
    | nil => rfl
    | cons d s => simpa [bumpLast] using ih

theorem bumpLast_append {s t : List Byte} (h : t ≠ []) : bumpLast (s ++ t) = s ++ bumpLast t := by
  rcases List.eq_nil_or_concat t with rfl | ⟨u, b, rfl⟩
  · exact absurd rfl h
  · rw [List.concat_eq_append, ← List.append_assoc, bumpLast_append_singleton, bumpLast_append_singleton, List.append_assoc]

/-- A corrupted string differs from the clean one (R164). -/
theorem bumpLast_ne {s : List Byte} (h : s ≠ []) : bumpLast s ≠ s := by
  rcases List.eq_nil_or_concat s with rfl | ⟨u, b, rfl⟩
  · exact absurd rfl h
  · rw [List.concat_eq_append, bumpLast_append_singleton]
    intro e
    simp at e

end Sys2Proof.Machine
end

