-- ==== Sys2Proof/Laws/Memory.lean ====
section
/-! SUPPORT. The laws of a buffer: what a write and a store of a byte string change, and that each keeps the canonical form. -/

namespace Sys2Proof.Machine

@[simp] theorem Memory.read_nil (a : Nat) : Memory.read [] a = none := rfl

theorem Memory.read_write (m : Memory) (a x : Nat) (b : Byte) :
    Memory.read (Memory.write m a b) x = if x = a then some b else Memory.read m x := by
  induction m with
  | nil => simp [Memory.write, Memory.read]
  | cons cell rest ih =>
    obtain ⟨c, d⟩ := cell
    simp only [Memory.write]
    split
    · simp [Memory.read]
    · split
      · rename_i h
        subst h
        by_cases hx : x = a <;> simp [Memory.read, hx]
      · rename_i h₁ h₂
        simp only [Memory.read, ih]
        by_cases hx : x = c
        · simp [hx, Ne.symm h₂]
        · simp [hx]

@[simp] theorem Memory.read_write_same (m : Memory) (a : Nat) (b : Byte) :
    Memory.read (Memory.write m a b) a = some b := by simp [Memory.read_write]

theorem Memory.read_write_other {m : Memory} {a x : Nat} {b : Byte} (h : x ≠ a) :
    Memory.read (Memory.write m a b) x = Memory.read m x := by simp [Memory.read_write, h]

theorem Memory.read_writeBytes (bs : List Byte) (m : Memory) (a x : Nat) :
    Memory.read (Memory.writeBytes m a bs) x =
      if a ≤ x ∧ x < a + bs.length then bs[x - a]? else Memory.read m x := by
  induction bs generalizing m a with
  | nil =>
    have : ¬(a ≤ x ∧ x < a + ([] : List Byte).length) := by simp only [List.length_nil]; omega
    simp only [Memory.writeBytes, this, if_false]
  | cons b bs ih =>
    simp only [Memory.writeBytes, ih, Memory.read_write, List.length_cons]
    by_cases hx : x = a
    · subst hx
      simp
    · by_cases h1 : a + 1 ≤ x ∧ x < a + 1 + bs.length
      · have h2 : a ≤ x ∧ x < a + (bs.length + 1) := by omega
        have h3 : x - a = (x - (a + 1)) + 1 := by omega
        simp [h1, h2, h3]
      · have h2 : ¬(a ≤ x ∧ x < a + (bs.length + 1)) := by omega
        rw [if_neg h1, if_neg hx, if_neg h2]

theorem Memory.bufferHolds_writeBytes (m : Memory) (a : Nat) (bs : List Byte) :
    BufferHolds (Memory.writeBytes m a bs) a bs := by
  intro i h
  simp [Memory.read_writeBytes, h]

theorem Memory.writeBytes_append (xs ys : List Byte) (m : Memory) (a : Nat) :
    Memory.writeBytes m a (xs ++ ys) = Memory.writeBytes (Memory.writeBytes m a xs) (a + xs.length) ys := by
  induction xs generalizing m a with
  | nil => simp [Memory.writeBytes]
  | cons x xs ih => simp [Memory.writeBytes, ih, Nat.add_assoc, Nat.add_comm 1]

theorem Memory.read_ofBytes (bs : List Byte) (a x : Nat) :
    Memory.read (Memory.ofBytes a bs) x = if a ≤ x then bs[x - a]? else none := by
  induction bs generalizing a with
  | nil => simp [Memory.ofBytes]
  | cons b bs ih =>
    simp only [Memory.ofBytes, Memory.read, ih]
    by_cases hx : x = a
    · simp [hx]
    · by_cases h : a ≤ x
      · have h1 : a + 1 ≤ x := by omega
        have h3 : x - a = (x - (a + 1)) + 1 := by omega
        simp [hx, h, h1, h3]
      · have h1 : ¬ a + 1 ≤ x := by omega
        simp [hx, h, h1]

@[simp] theorem Memory.read_ofBytes_zero (bs : List Byte) (x : Nat) : Memory.read (Memory.ofBytes 0 bs) x = bs[x]? := by
  simp [Memory.read_ofBytes]

/-- Equal buffers that hold a string each from 0 on hold equal strings. -/
theorem Memory.ofBytes_injective {xs ys : List Byte} {a : Nat} (h : Memory.ofBytes a xs = Memory.ofBytes a ys) : xs = ys := by
  induction xs generalizing ys a with
  | nil => cases ys <;> simp_all [Memory.ofBytes]
  | cons x xs ih =>
    cases ys with
    | nil => simp [Memory.ofBytes] at h
    | cons y ys =>
      simp only [Memory.ofBytes, List.cons.injEq, Prod.mk.injEq, true_and] at h
      rw [h.1, ih h.2]

theorem Memory.ofBytes_addresses (bs : List Byte) (a : Nat) :
    (Memory.ofBytes a bs).map Prod.fst = List.range' a bs.length := by
  induction bs generalizing a with
  | nil => rfl
  | cons b bs ih => simp [Memory.ofBytes, ih, List.range'_succ]

theorem Memory.wfFrom_mono {m : Memory} {lo hi : Nat} (h : lo ≤ hi) (w : Memory.wfFrom hi m = true) :
    Memory.wfFrom lo m = true := by
  cases m with
  | nil => rfl
  | cons cell rest =>
    simp only [Memory.wfFrom, Bool.and_eq_true, decide_eq_true_eq] at w ⊢
    exact ⟨by omega, w.2⟩

theorem Memory.wfFrom_write {m : Memory} {lo a : Nat} (b : Byte) (h : lo ≤ a) (w : Memory.wfFrom lo m = true) :
    Memory.wfFrom lo (Memory.write m a b) = true := by
  induction m generalizing lo with
  | nil => simp [Memory.write, Memory.wfFrom, h]
  | cons cell rest ih =>
    obtain ⟨c, d⟩ := cell
    simp only [Memory.wfFrom, Bool.and_eq_true, decide_eq_true_eq] at w
    simp only [Memory.write]
    split
    · simp only [Memory.wfFrom, Bool.and_eq_true, decide_eq_true_eq]
      exact ⟨h, by omega, w.2⟩
    · split
      · rename_i hac
        simp only [Memory.wfFrom, Bool.and_eq_true, decide_eq_true_eq]
        exact ⟨h, hac ▸ w.2⟩
      · simp only [Memory.wfFrom, Bool.and_eq_true, decide_eq_true_eq]
        exact ⟨w.1, ih (by omega) w.2⟩

/-- A write keeps the canonical form. -/
theorem Memory.wf_write {m : Memory} (a : Nat) (b : Byte) (w : Memory.wf m = true) : Memory.wf (Memory.write m a b) = true :=
  Memory.wfFrom_write b (Nat.zero_le a) w

/-- A store of a byte string keeps the canonical form. -/
theorem Memory.wf_writeBytes (bs : List Byte) {m : Memory} (a : Nat) (w : Memory.wf m = true) :
    Memory.wf (Memory.writeBytes m a bs) = true := by
  induction bs generalizing m a with
  | nil => exact w
  | cons b bs ih => exact ih (a + 1) (Memory.wf_write a b w)

theorem Memory.wfFrom_ofBytes (bs : List Byte) (a : Nat) : Memory.wfFrom a (Memory.ofBytes a bs) = true := by
  induction bs generalizing a with
  | nil => rfl
  | cons b bs ih => simp [Memory.ofBytes, Memory.wfFrom, ih]

/-- A stored string is canonical. -/
theorem Memory.wf_ofBytes (bs : List Byte) : Memory.wf (Memory.ofBytes 0 bs) = true := Memory.wfFrom_ofBytes bs 0

@[simp] theorem Memory.wf_nil : Memory.wf [] = true := rfl

theorem Memory.below_write {m : Memory} {a bound : Nat} (b : Byte) (h : a < bound) (w : Memory.below m bound = true) :
    Memory.below (Memory.write m a b) bound = true := by
  induction m with
  | nil => simp [Memory.write, Memory.below, h]
  | cons cell rest ih =>
    obtain ⟨c, d⟩ := cell
    simp only [Memory.below, List.all_cons, Bool.and_eq_true, decide_eq_true_eq] at w ih ⊢
    simp only [Memory.write]
    split
    · simp only [List.all_cons, Bool.and_eq_true, decide_eq_true_eq]
      exact ⟨h, w⟩
    · split
      · simp only [List.all_cons, Bool.and_eq_true, decide_eq_true_eq]
        exact ⟨h, w.2⟩
      · simp only [List.all_cons, Bool.and_eq_true, decide_eq_true_eq]
        exact ⟨w.1, ih w.2⟩

/-- A store that fits the buffer leaves every address inside it. -/
theorem Memory.below_writeBytes (bs : List Byte) {m : Memory} {a bound : Nat} (h : a + bs.length ≤ bound)
    (w : Memory.below m bound = true) : Memory.below (Memory.writeBytes m a bs) bound = true := by
  induction bs generalizing m a with
  | nil => exact w
  | cons b bs ih =>
    simp only [List.length_cons] at h
    exact ih (by omega) (Memory.below_write b (by omega) w)

end Sys2Proof.Machine
end

