-- ==== Sys2Proof/Laws/Operands.lean ====
section
/-! SUPPORT. What each operand form answers: the value, or the fault that names the first ⊥ it reads (R56). -/

namespace Sys2Proof.Machine

@[simp] theorem except_bind_ok {ε α β : Type} (a : α) (f : α → Except ε β) : (Except.ok a >>= f) = f a := rfl
@[simp] theorem except_bind_error {ε α β : Type} (e : ε) (f : α → Except ε β) : (Except.error e >>= f) = Except.error e := rfl
@[simp] theorem except_pure {ε α : Type} (a : α) : (pure a : Except ε α) = Except.ok a := rfl

/-- A sequence of two reads answers a value exactly when both do. -/
theorem except_bind_eq_ok {ε α β : Type} {x : Except ε α} {f : α → Except ε β} {b : β} :
    (x >>= f) = .ok b ↔ ∃ a, x = .ok a ∧ f a = .ok b := by
  cases x <;> simp

/-- A sequence of two reads faults exactly when the first does, or the second after it. -/
theorem except_bind_eq_error {ε α β : Type} {x : Except ε α} {f : α → Except ε β} {e : ε} :
    (x >>= f) = .error e ↔ x = .error e ∨ ∃ a, x = .ok a ∧ f a = .error e := by
  cases x <;> simp

@[simp] theorem need_some {α : Type} (what : Operand) (v : α) : need what (some v) = .ok v := rfl
@[simp] theorem need_none {α : Type} (what : Operand) :
    need what (none : Option α) = .error (.unwrittenOperand what) := rfl

theorem need_eq_ok {α : Type} {what : Operand} {o : Option α} {v : α} : need what o = .ok v ↔ o = some v := by
  cases o <;> simp

theorem need_eq_error {α : Type} {what : Operand} {o : Option α} {f : Fault} :
    need what o = .error f ↔ o = none ∧ f = .unwrittenOperand what := by
  cases o <;> simp [eq_comm]

@[simp] theorem bufferHolds_nil (m : Memory) (a : Nat) : BufferHolds m a [] := by
  intro i h
  simp at h

theorem bufferHolds_cons {m : Memory} {a : Nat} {b : Byte} {bs : List Byte} :
    BufferHolds m a (b :: bs) ↔ Memory.read m a = some b ∧ BufferHolds m (a + 1) bs := by
  constructor
  · intro h
    refine ⟨by simpa using h 0 (by simp), fun i hi => ?_⟩
    have := h (i + 1) (by simpa using hi)
    simpa [Nat.add_assoc, Nat.add_comm 1] using this
  · rintro ⟨h0, h1⟩ i hi
    cases i with
    | zero => simpa using h0
    | succ i =>
      have := h1 i (by simpa using hi)
      simpa [Nat.add_assoc, Nat.add_comm 1] using this

theorem bufferHolds_append {m : Memory} {a : Nat} {xs ys : List Byte} :
    BufferHolds m a (xs ++ ys) ↔ BufferHolds m a xs ∧ BufferHolds m (a + xs.length) ys := by
  induction xs generalizing a with
  | nil => simp
  | cons x xs ih => simp only [List.cons_append, bufferHolds_cons, ih, List.length_cons, and_assoc, Nat.add_assoc,
      Nat.add_comm 1]

/-- A string of INBUF bytes is read exactly when INBUF holds it. -/
theorem inBytes_eq_ok {r : Request} {a n : Nat} {bs : List Byte} :
    inBytes r a n = .ok bs ↔ bs.length = n ∧ BufferHolds r.inbuf a bs := by
  induction n generalizing a bs with
  | zero =>
    cases bs with
    | nil => simp [inBytes]
    | cons b bs => simp [inBytes]
  | succ n ih =>
    simp only [inBytes, except_bind_eq_ok, except_pure, Except.ok.injEq, inByte, need_eq_ok]
    cases bs with
    | nil => simp
    | cons b bs =>
      simp only [bufferHolds_cons, List.length_cons, Nat.add_right_cancel_iff]
      constructor
      · rintro ⟨b', h1, bs', h2, h3⟩
        obtain ⟨rfl, rfl⟩ := List.cons.inj h3
        exact ⟨(ih.1 h2).1, h1, (ih.1 h2).2⟩
      · rintro ⟨h1, h2, h3⟩
        exact ⟨b, h2, bs, ih.2 ⟨h1, h3⟩, rfl⟩

theorem inBytes_of_holds {r : Request} {a : Nat} {bs : List Byte} (h : BufferHolds r.inbuf a bs) :
    inBytes r a bs.length = .ok bs := inBytes_eq_ok.2 ⟨rfl, h⟩

/-- The fault of a string read names the first of its bytes that is ⊥. -/
theorem inBytes_eq_error {r : Request} {a n : Nat} {f : Fault} :
    inBytes r a n = .error f ↔
      ∃ i, i < n ∧ f = .unwrittenOperand (.inbuf (a + i)) ∧ Memory.read r.inbuf (a + i) = none ∧
        ∀ j, j < i → Memory.read r.inbuf (a + j) ≠ none := by
  induction n generalizing a with
  | zero => simp [inBytes]
  | succ n ih =>
    simp only [inBytes, except_bind_eq_error, except_pure, inByte, need_eq_error, need_eq_ok, ih]
    constructor
    · rintro (⟨h1, h2⟩ | ⟨b, h1, ⟨i, hi, h2, h3, h4⟩ | ⟨bs, -, h2⟩⟩)
      · exact ⟨0, by omega, by simpa using h2, by simpa using h1, by omega⟩
      · refine ⟨i + 1, by omega, by simpa [Nat.add_assoc, Nat.add_comm 1] using h2,
          by simpa [Nat.add_assoc, Nat.add_comm 1] using h3, fun j hj => ?_⟩
        cases j with
        | zero => simp [h1]
        | succ j =>
          have := h4 j (by omega)
          simpa [Nat.add_assoc, Nat.add_comm 1] using this
      · exact absurd h2 (by simp)
    · rintro ⟨i, hi, h2, h3, h4⟩
      cases i with
      | zero => exact .inl ⟨by simpa using h3, by simpa using h2⟩
      | succ i =>
        obtain ⟨b, hb⟩ := Option.ne_none_iff_exists'.1 (h4 0 (by omega))
        refine .inr ⟨b, by simpa using hb, .inl ⟨i, by omega, by simpa [Nat.add_assoc, Nat.add_comm 1] using h2,
          by simpa [Nat.add_assoc, Nat.add_comm 1] using h3, fun j hj => ?_⟩⟩
        have := h4 (j + 1) (by omega)
        simpa [Nat.add_assoc, Nat.add_comm 1] using this

/-- A string read depends on its bytes alone. -/
theorem inBytes_congr {r₁ r₂ : Request} {a n : Nat}
    (h : ∀ i, i < n → Memory.read r₁.inbuf (a + i) = Memory.read r₂.inbuf (a + i)) : inBytes r₁ a n = inBytes r₂ a n := by
  induction n generalizing a with
  | zero => rfl
  | succ n ih =>
    have h0 := h 0 (by omega)
    have hs : inBytes r₁ (a + 1) n = inBytes r₂ (a + 1) n := ih fun i hi => by
      have := h (i + 1) (by omega)
      simpa [Nat.add_assoc, Nat.add_comm 1] using this
    simp only [inBytes, inByte, hs]
    rw [show Memory.read r₁.inbuf a = Memory.read r₂.inbuf a by simpa using h0]

theorem memRead_eq_ok {r : Request} {a n v : Nat} :
    memRead r a n = .ok v ↔ ∃ bs : List Byte, bs.length = n ∧ BufferHolds r.inbuf a bs ∧ beNat bs = v := by
  simp only [memRead, except_bind_eq_ok, except_pure, Except.ok.injEq, inBytes_eq_ok, and_assoc]

theorem memRead_of_holds {r : Request} {a : Nat} {bs : List Byte} (h : BufferHolds r.inbuf a bs) :
    memRead r a bs.length = .ok (beNat bs) := memRead_eq_ok.2 ⟨bs, rfl, h, rfl⟩

theorem memRead_eq_error {r : Request} {a n : Nat} {f : Fault} :
    memRead r a n = .error f ↔ inBytes r a n = .error f := by
  simp [memRead, except_bind_eq_error]

theorem memRead_congr {r₁ r₂ : Request} {a n : Nat}
    (h : ∀ i, i < n → Memory.read r₁.inbuf (a + i) = Memory.read r₂.inbuf (a + i)) : memRead r₁ a n = memRead r₂ a n := by
  simp only [memRead, inBytes_congr h]

/-- A field fits its byte count (R90). -/
theorem memRead_lt {r : Request} {a n v : Nat} (h : memRead r a n = .ok v) : v < 256 ^ n := by
  obtain ⟨bs, hl, -, rfl⟩ := memRead_eq_ok.1 h
  have : ∀ s : List Byte, beNat s < 256 ^ s.length := by
    intro s
    induction s using List.reverseRecOn with
    | nil => simp [beNat]
    | append_singleton s b ih =>
      have hb := b.isLt
      simp only [beNat, List.foldl_append, List.foldl_cons, List.foldl_nil, List.length_append, List.length_singleton,
        Nat.pow_succ] at ih ⊢
      omega
  exact hl ▸ this bs

end Sys2Proof.Machine
end

