-- ==== Sys2Proof/Laws/State.lean ====
section
/-! SUPPORT. One lemma per field per update, so that no proof unfolds a record update. -/

namespace Sys2Proof.Machine

@[simp] theorem State.completed_cfg (s : State) (r : Response) : (s.completed r).cfg = s.cfg := rfl
@[simp] theorem State.completed_req (s : State) (r : Response) : (s.completed r).req = s.req := rfl
@[simp] theorem State.completed_busy (s : State) (r : Response) : (s.completed r).busy = false := rfl
@[simp] theorem State.completed_respValid (s : State) (r : Response) : (s.completed r).respValid = true := rfl
@[simp] theorem State.completed_resp (s : State) (r : Response) : (s.completed r).resp = r := rfl
@[simp] theorem State.completed_faultRecord (s : State) (r : Response) : (s.completed r).faultRecord = s.faultRecord := rfl
@[simp] theorem State.completed_hostMoves (s : State) (r : Response) : (s.completed r).hostMoves = s.hostMoves := rfl

@[simp] theorem State.issued_cfg (s : State) (c : Code) : (s.issued c).cfg = s.cfg := rfl
@[simp] theorem State.issued_req (s : State) (c : Code) : (s.issued c).req = { s.req with cmd := some c } := rfl
@[simp] theorem State.issued_busy (s : State) (c : Code) : (s.issued c).busy = true := rfl
@[simp] theorem State.issued_respValid (s : State) (c : Code) : (s.issued c).respValid = false := rfl
@[simp] theorem State.issued_resp (s : State) (c : Code) : (s.issued c).resp = Response.blank := rfl
@[simp] theorem State.issued_faultRecord (s : State) (c : Code) : (s.issued c).faultRecord = s.faultRecord := rfl
@[simp] theorem State.issued_hostMoves (s : State) (c : Code) : (s.issued c).hostMoves = s.hostMoves := rfl

@[simp] theorem State.resetEvent_cfg (s : State) : s.resetEvent.cfg = s.cfg := rfl
@[simp] theorem State.resetEvent_req (s : State) : s.resetEvent.req = Request.blank := rfl
@[simp] theorem State.resetEvent_busy (s : State) : s.resetEvent.busy = false := rfl
@[simp] theorem State.resetEvent_respValid (s : State) : s.resetEvent.respValid = false := rfl
@[simp] theorem State.resetEvent_resp (s : State) : s.resetEvent.resp = Response.blank := rfl
@[simp] theorem State.resetEvent_faultRecord (s : State) : s.resetEvent.faultRecord = s.faultRecord := rfl
@[simp] theorem State.resetEvent_hostMoves (s : State) : s.resetEvent.hostMoves = s.hostMoves := rfl

@[simp] theorem State.recordFault_cfg (s : State) (f : Fault) : (s.recordFault f).cfg = s.cfg := rfl
@[simp] theorem State.recordFault_req (s : State) (f : Fault) : (s.recordFault f).req = s.req := rfl
@[simp] theorem State.recordFault_busy (s : State) (f : Fault) : (s.recordFault f).busy = s.busy := rfl
@[simp] theorem State.recordFault_respValid (s : State) (f : Fault) : (s.recordFault f).respValid = s.respValid := rfl
@[simp] theorem State.recordFault_resp (s : State) (f : Fault) : (s.recordFault f).resp = s.resp := rfl
@[simp] theorem State.recordFault_faultRecord (s : State) (f : Fault) : (s.recordFault f).faultRecord = some f := rfl
@[simp] theorem State.recordFault_hostMoves (s : State) (f : Fault) : (s.recordFault f).hostMoves = s.hostMoves := rfl

@[simp] theorem State.withMoves_cfg (s : State) (ms : List HostMove) : (s.withMoves ms).cfg = s.cfg := rfl
@[simp] theorem State.withMoves_req (s : State) (ms : List HostMove) : (s.withMoves ms).req = s.req := rfl
@[simp] theorem State.withMoves_busy (s : State) (ms : List HostMove) : (s.withMoves ms).busy = s.busy := rfl
@[simp] theorem State.withMoves_respValid (s : State) (ms : List HostMove) : (s.withMoves ms).respValid = s.respValid := rfl
@[simp] theorem State.withMoves_resp (s : State) (ms : List HostMove) : (s.withMoves ms).resp = s.resp := rfl
@[simp] theorem State.withMoves_faultRecord (s : State) (ms : List HostMove) :
    (s.withMoves ms).faultRecord = s.faultRecord := rfl
@[simp] theorem State.withMoves_hostMoves (s : State) (ms : List HostMove) : (s.withMoves ms).hostMoves = ms := rfl

@[simp] theorem State.withReq_cfg (s : State) (r : Request) : (s.withReq r).cfg = s.cfg := rfl
@[simp] theorem State.withReq_req (s : State) (r : Request) : (s.withReq r).req = r := rfl
@[simp] theorem State.withReq_busy (s : State) (r : Request) : (s.withReq r).busy = s.busy := rfl
@[simp] theorem State.withReq_respValid (s : State) (r : Request) : (s.withReq r).respValid = s.respValid := rfl
@[simp] theorem State.withReq_resp (s : State) (r : Request) : (s.withReq r).resp = s.resp := rfl
@[simp] theorem State.withReq_faultRecord (s : State) (r : Request) : (s.withReq r).faultRecord = s.faultRecord := rfl
@[simp] theorem State.withReq_hostMoves (s : State) (r : Request) : (s.withReq r).hostMoves = s.hostMoves := rfl

@[simp] theorem Response.finish_status (st : BitVec 3) : (Response.finish st).status = some st := rfl
@[simp] theorem Response.finish_crc (st : BitVec 3) : (Response.finish st).crc = none := rfl
@[simp] theorem Response.finish_crcOk (st : BitVec 3) : (Response.finish st).crcOk = none := rfl
@[simp] theorem Response.finish_outlen (st : BitVec 3) : (Response.finish st).outlen = none := rfl
@[simp] theorem Response.finish_outbuf (st : BitVec 3) : (Response.finish st).outbuf = [] := rfl
@[simp] theorem Response.finish_dKind (st : BitVec 3) : (Response.finish st).dKind = none := rfl
@[simp] theorem Response.finish_dSeq (st : BitVec 3) : (Response.finish st).dSeq = none := rfl
@[simp] theorem Response.finish_dNext (st : BitVec 3) : (Response.finish st).dNext = none := rfl
@[simp] theorem Response.finish_dLen (st : BitVec 3) : (Response.finish st).dLen = none := rfl
@[simp] theorem Response.finish_dChecksum (st : BitVec 3) : (Response.finish st).dChecksum = none := rfl
@[simp] theorem Response.finish_dReqid (st : BitVec 3) : (Response.finish st).dReqid = none := rfl

end Sys2Proof.Machine
end

