-- ==== Sys2Proof/Laws/Completion.lean ====
section
/-! SUPPORT. What a completion can do, said once: every instruction's meaning is one `completeWith` over its response
(`exec_eq`), and each response function has one lemma that lists the responses it answers. -/

namespace Sys2Proof.Machine

/-- The response of each instruction. -/
def instrResponse : Instr → Config → Request → Except Fault Response
  | .crc32, c, r => crc32Response c r
  | .encodeData, c, r => encodeDataResponse c r
  | .encodeControl, _, r => encodeControlResponse r
  | .decode, c, r => decodeResponse c r
  | .validate, c, r => validateResponse c r
  | .rsv5, _, _ => reservedResponse
  | .rsv6, _, _ => reservedResponse
  | .rsv7, _, _ => reservedResponse
  | .frameData, c, r => frameResponse 0x00#8 c r
  | .frameRequest, c, r => frameResponse 0x01#8 c r
  | .frameFile, c, r => frameResponse 0x02#8 c r
  | .frameSuccess, c, r => frameResponse 0xC8#8 c r
  | .frameHandshakeAck, c, r => frameResponse 0xFE#8 c r
  | .frameHandshakeRequest, c, r => frameResponse 0xFF#8 c r
  | .frameUnknown k, c, r => frameResponse k c r

/-- A completion is a function of the request registers and the configuration (R30, R54). -/
theorem exec_eq (i : Instr) (s : State) : exec i s = completeWith s (instrResponse i s.cfg s.req) := by
  cases i <;> rfl

@[simp] theorem completeWith_ok (s : State) (p : Response) : completeWith s (.ok p) = .next (s.completed p) := rfl
@[simp] theorem completeWith_error (s : State) (f : Fault) : completeWith s (.error f) = .fault f := rfl

theorem completeWith_eq_next {s t : State} {x : Except Fault Response} :
    completeWith s x = .next t ↔ ∃ p, x = .ok p ∧ t = s.completed p := by
  cases x <;> simp [eq_comm]

theorem completeWith_eq_fault {s : State} {x : Except Fault Response} {f : Fault} :
    completeWith s x = .fault f ↔ x = .error f := by
  cases x <;> simp

theorem completeWith_ne_refused (s : State) (x : Except Fault Response) (r : Refusal) : completeWith s x ≠ .refused r := by
  cases x <;> simp

/-- Everything a completion that answers a next state can do. -/
theorem exec_eq_next {i : Instr} {s t : State} :
    exec i s = .next t ↔ ∃ p, instrResponse i s.cfg s.req = .ok p ∧ t = s.completed p := by
  rw [exec_eq, completeWith_eq_next]

theorem exec_eq_fault {i : Instr} {s : State} {f : Fault} :
    exec i s = .fault f ↔ instrResponse i s.cfg s.req = .error f := by
  rw [exec_eq, completeWith_eq_fault]

/-- DECODE of a datagram whose kind byte is written is the row of its kind (R121). -/
theorem decodeResponse_eq_frameResponse {c : Config} {r : Request} {k : Byte} (h : Memory.read r.inbuf 16 = some k) :
    decodeResponse c r = frameResponse k c r := by
  simp only [decodeResponse, frameResponse, inByte, h, need_some, except_bind_ok]

/-- A row of the kind map runs its kind byte's arm of DECODE. -/
theorem instrResponse_decodeKind (k : Byte) (c : Config) (r : Request) :
    instrResponse (decodeKind k) c r = frameResponse k c r := by
  unfold decodeKind
  split_ifs with h1 h2 h3 h4 h5 h6
  all_goals (subst_vars; rfl)

/-- The classes of the six kind codes and of the others (R87, R88). -/
theorem kindClass_dataFile {k : Byte} : kindClass k = .dataFile ↔ k = 0x00#8 ∨ k = 0x02#8 := by
  unfold kindClass
  split_ifs <;> simp_all

theorem kindClass_controlId {k : Byte} : kindClass k = .controlId ↔ k = 0x01#8 ∨ k = 0xC8#8 := by
  unfold kindClass
  split_ifs with h1 h2 h3
  · rcases h1 with rfl | rfl <;> simp
  · simp [h2]
  · simp [h2]
  · simp [h2]

theorem kindClass_handshake {k : Byte} : kindClass k = .handshake ↔ k = 0xFE#8 ∨ k = 0xFF#8 := by
  unfold kindClass
  split_ifs with h1 h2 h3
  · rcases h1 with rfl | rfl <;> simp
  · rcases h2 with rfl | rfl <;> simp
  · simp [h3]
  · simp [h3]

theorem kindClass_unknown {k : Byte} : kindClass k = .unknown ↔ k ∉ knownKinds := by
  unfold kindClass knownKinds
  split_ifs with h1 h2 h3
  · rcases h1 with rfl | rfl <;> simp
  · rcases h2 with rfl | rfl <;> simp
  · rcases h3 with rfl | rfl <;> simp
  · simp_all

/-- What CRC32 answers (R155). -/
theorem crc32Response_ok {c : Config} {r : Request} {p : Response} (h : crc32Response c r = .ok p) :
    ∃ bs : List Byte, r.inlen = some bs.length ∧ BufferHolds r.inbuf 0 bs ∧
      p = { Response.finish statusOk with crc := some (crc32 c bs) } := by
  simp only [crc32Response, except_bind_eq_ok, need_eq_ok, inBytes_eq_ok, except_pure, Except.ok.injEq] at h
  obtain ⟨n, hn, bs, ⟨rfl, hb⟩, rfl⟩ := h
  exact ⟨bs, hn, hb, rfl⟩

/-- What ENCODE_DATA answers (R111): BAD_OPERAND, or the frame. -/
theorem encodeDataResponse_ok {c : Config} {r : Request} {p : Response} (h : encodeDataResponse c r = .ok p) :
    p = Response.finish statusBadOperand ∨
    ∃ k seq next bs inject, r.kind = some k ∧ kindClass k = .dataFile ∧ r.inlen = some (List.length bs) ∧ bs.length ≤ 65535 ∧
      23 + bs.length ≤ c.bufBytes ∧ r.seq = some seq ∧ r.next = some next ∧ BufferHolds r.inbuf 0 bs ∧
      r.inject = some inject ∧ p = frameOut (dataFrame c seq next k bs inject) (23 + bs.length) := by
  simp only [encodeDataResponse, except_bind_eq_ok, need_eq_ok] at h
  obtain ⟨k, hk, h⟩ := h
  split at h
  · simp at h; exact .inl h.symm
  rename_i hc
  simp only [except_bind_eq_ok, need_eq_ok] at h
  obtain ⟨n, hn, h⟩ := h
  split at h
  · simp at h; exact .inl h.symm
  split at h
  · simp at h; exact .inl h.symm
  rename_i h1 h2
  simp only [except_bind_eq_ok, need_eq_ok, inBytes_eq_ok, except_pure, Except.ok.injEq] at h
  obtain ⟨seq, hseq, next, hnext, bs, ⟨rfl, hb⟩, inject, hi, rfl⟩ := h
  exact .inr ⟨k, seq, next, bs, inject, hk, by simpa using hc, hn, by omega, by omega, hseq, hnext, hb, hi, rfl⟩

/-- What ENCODE_CONTROL answers (R116): a CF-R frame, a CF-H frame, or BAD_OPERAND. -/
theorem encodeControlResponse_ok {r : Request} {p : Response} (h : encodeControlResponse r = .ok p) :
    p = Response.finish statusBadOperand ∨
    (∃ k id, r.kind = some k ∧ kindClass k = .controlId ∧ r.reqid = some id ∧ p = frameOut (controlIdFrame k id) 25) ∨
    (∃ k, r.kind = some k ∧ kindClass k = .handshake ∧ p = frameOut (controlHeader k) 17) := by
  simp only [encodeControlResponse, except_bind_eq_ok, need_eq_ok] at h
  obtain ⟨k, hk, h⟩ := h
  split at h
  · simp only [except_bind_eq_ok, need_eq_ok, except_pure, Except.ok.injEq] at h
    obtain ⟨id, hid, rfl⟩ := h
    exact .inr (.inl ⟨k, id, hk, ‹_›, hid, rfl⟩)
  · simp at h; exact .inr (.inr ⟨k, hk, ‹_›, h.symm⟩)
  · simp at h; exact .inl h.symm
  · simp at h; exact .inl h.symm

/-- What the DF arm of DECODE answers (R121): MALFORMED, or the frame's fields. -/
theorem decodeDataFile_ok {r : Request} {n : Nat} {k : Byte} {p : Response} (h : decodeDataFile r n k = .ok p) :
    p = Response.finish statusMalformed ∨
    ∃ seq next checksum : Nat, ∃ bs : List Byte, 23 + bs.length = n ∧ bs.length < 65536 ∧ memRead r 17 2 = .ok bs.length ∧
      memRead r 0 8 = .ok seq ∧ memRead r 8 8 = .ok next ∧ BufferHolds r.inbuf 19 bs ∧
      memRead r (19 + bs.length) 4 = .ok checksum ∧
      p = { frameOut bs bs.length with
        dKind := some k, dSeq := some (BitVec.ofNat 64 seq), dNext := some (BitVec.ofNat 64 next),
        dLen := some (BitVec.ofNat 16 bs.length), dChecksum := some (BitVec.ofNat 32 checksum) } := by
  unfold decodeDataFile at h
  split at h
  · simp at h; exact .inl h.symm
  simp only [except_bind_eq_ok] at h
  obtain ⟨len, hlen, h⟩ := h
  split at h
  · simp at h; exact .inl h.symm
  rename_i h1 h2
  simp only [except_bind_eq_ok, inBytes_eq_ok, except_pure, Except.ok.injEq] at h
  obtain ⟨seq, hseq, next, hnext, bs, ⟨rfl, hb⟩, ck, hck, rfl⟩ := h
  have := memRead_lt hlen
  exact .inr ⟨seq, next, ck, bs, by omega, by omega, hlen, hseq, hnext, hb, hck, rfl⟩

/-- What the CF-R arm of DECODE answers (R121). -/
theorem decodeControlId_ok {c : Config} {r : Request} {n : Nat} {k : Byte} {p : Response}
    (h : decodeControlId c r n k = .ok p) :
    p = Response.finish statusMalformed ∨
    ∃ id, controlLengthOk c n 25 = true ∧ zeroFieldsOk c r = .ok true ∧ memRead r 17 8 = .ok id ∧
      p = controlDecoded k (some (BitVec.ofNat 64 id)) := by
  unfold decodeControlId at h
  split at h
  · simp only [except_bind_eq_ok] at h
    obtain ⟨z, hz, h⟩ := h
    split at h
    · simp only [except_bind_eq_ok, except_pure, Except.ok.injEq] at h
      obtain ⟨id, hid, rfl⟩ := h
      exact .inr ⟨id, ‹_›, by simp_all, hid, rfl⟩
    · simp at h; exact .inl h.symm
  · simp at h; exact .inl h.symm

/-- What the CF-H arm of DECODE answers (R121). -/
theorem decodeHandshake_ok {c : Config} {r : Request} {n : Nat} {k : Byte} {p : Response}
    (h : decodeHandshake c r n k = .ok p) :
    p = Response.finish statusMalformed ∨
    (controlLengthOk c n 17 = true ∧ zeroFieldsOk c r = .ok true ∧ p = controlDecoded k none) := by
  unfold decodeHandshake at h
  split at h
  · simp only [except_bind_eq_ok] at h
    obtain ⟨z, hz, h⟩ := h
    split at h
    · simp at h; exact .inr ⟨‹_›, by simp_all, h.symm⟩
    · simp at h; exact .inl h.symm
  · simp at h; exact .inl h.symm

/-- What a row of the kind map answers (R121): MALFORMED below 17 bytes, the arm of its kind otherwise. -/
theorem frameResponse_ok {k : Byte} {c : Config} {r : Request} {p : Response} (h : frameResponse k c r = .ok p) :
    ∃ n, r.inlen = some n ∧
      ((n < 17 ∧ p = Response.finish statusMalformed) ∨ (17 ≤ n ∧ decodeArm c r n k = .ok p)) := by
  simp only [frameResponse, except_bind_eq_ok, need_eq_ok] at h
  obtain ⟨n, hn, h⟩ := h
  refine ⟨n, hn, ?_⟩
  split at h
  · simp at h; exact .inl ⟨‹_›, h.symm⟩
  · exact .inr ⟨by omega, h⟩

/-- What DECODE answers (R121). -/
theorem decodeResponse_ok {c : Config} {r : Request} {p : Response} (h : decodeResponse c r = .ok p) :
    ∃ n, r.inlen = some n ∧
      ((n < 17 ∧ p = Response.finish statusMalformed) ∨
        ∃ k, 17 ≤ n ∧ Memory.read r.inbuf 16 = some k ∧ decodeArm c r n k = .ok p) := by
  simp only [decodeResponse, except_bind_eq_ok, need_eq_ok] at h
  obtain ⟨n, hn, h⟩ := h
  refine ⟨n, hn, ?_⟩
  split at h
  · simp at h; exact .inl ⟨‹_›, h.symm⟩
  · simp only [except_bind_eq_ok, inByte, need_eq_ok] at h
    obtain ⟨k, hk, h⟩ := h
    exact .inr ⟨k, by omega, hk, h⟩

/-- What VALIDATE answers past its kind checks (R159). -/
theorem validateDataFile_ok {c : Config} {r : Request} {n : Nat} {p : Response} (h : validateDataFile c r n = .ok p) :
    p = Response.finish statusMalformed ∨
    ∃ len received, ∃ covered : List Byte, 23 + len = n ∧ memRead r 17 2 = .ok len ∧ covered.length = 19 + len ∧
      BufferHolds r.inbuf 0 covered ∧ memRead r (19 + len) 4 = .ok received ∧
      p = { Response.finish statusOk with crc := some (crc32 c covered), crcOk := some (crcOkFlag (crc32 c covered) received) } := by
  unfold validateDataFile at h
  split at h
  · simp at h; exact .inl h.symm
  simp only [except_bind_eq_ok] at h
  obtain ⟨len, hlen, h⟩ := h
  split at h
  · simp at h; exact .inl h.symm
  simp only [except_bind_eq_ok, inBytes_eq_ok, except_pure, Except.ok.injEq] at h
  obtain ⟨cov, ⟨hl, hb⟩, rec, hrec, rfl⟩ := h
  exact .inr ⟨len, rec, cov, by omega, hlen, hl, hb, hrec, rfl⟩

/-- What VALIDATE answers (R159). -/
theorem validateResponse_ok {c : Config} {r : Request} {p : Response} (h : validateResponse c r = .ok p) :
    ∃ n, r.inlen = some n ∧
      ((n < 17 ∧ p = Response.finish statusMalformed) ∨
        ∃ k, 17 ≤ n ∧ Memory.read r.inbuf 16 = some k ∧
          ((kindClass k = .unknown ∧ p = Response.finish statusUnknownKind) ∨
           ((kindClass k = .controlId ∨ kindClass k = .handshake) ∧ p = Response.finish statusBadOperand) ∨
           (kindClass k = .dataFile ∧ validateDataFile c r n = .ok p))) := by
  simp only [validateResponse, except_bind_eq_ok, need_eq_ok] at h
  obtain ⟨n, hn, h⟩ := h
  refine ⟨n, hn, ?_⟩
  split at h
  · simp at h; exact .inl ⟨‹_›, h.symm⟩
  · simp only [except_bind_eq_ok, inByte, need_eq_ok] at h
    obtain ⟨k, hk, h⟩ := h
    refine .inr ⟨k, by omega, hk, ?_⟩
    split at h
    · simp at h; exact .inl ⟨‹_›, h.symm⟩
    · simp at h; exact .inr (.inl ⟨.inl ‹_›, h.symm⟩)
    · simp at h; exact .inr (.inl ⟨.inr ‹_›, h.symm⟩)
    · exact .inr (.inr ⟨‹_›, h⟩)

end Sys2Proof.Machine
end

