-- ==== Sys2Proof/Laws/Codec.lean ====
section
/-! SUPPORT. The frames the encoders build, as byte strings, and everything a completion can answer, over all instructions
(`instrResponse_ok`). -/

namespace Sys2Proof.Machine

/-- The last byte of a checksum, taken apart from the three before it. -/
theorem bytesBE_four (c : Nat) : bytesBE 4 c = bytesBE 3 (c / 256) ++ [BitVec.ofNat 8 c] := by
  simp [bytesBE, Nat.div_div_eq_div_mul]

/-- A data/file frame is its covered bytes, three checksum bytes, and the last one, incremented when INJECT = 1 (R163). -/
theorem dataFrame_eq (c : Config) (seq next : Id) (k : Byte) (p : List Byte) (inject : Bool) :
    dataFrame c seq next k p inject =
      dataFrameBody seq next k p ++ bytesBE 3 ((crc32 c (dataFrameBody seq next k p)).toNat / 256) ++
        [if inject then BitVec.ofNat 8 (crc32 c (dataFrameBody seq next k p)).toNat + 1#8
          else BitVec.ofNat 8 (crc32 c (dataFrameBody seq next k p)).toNat] := by
  have h := bytesBE_four (crc32 c (dataFrameBody seq next k p)).toNat
  unfold dataFrame
  simp only [h, ← List.append_assoc]
  cases inject
  · simp
  · simp only [if_true]
    rw [bumpLast_append_singleton]

@[simp] theorem dataFrameBody_length (seq next : Id) (k : Byte) (p : List Byte) :
    (dataFrameBody seq next k p).length = 19 + p.length := by
  simp [dataFrameBody]
  omega

@[simp] theorem dataFrame_length (c : Config) (seq next : Id) (k : Byte) (p : List Byte) (inject : Bool) :
    (dataFrame c seq next k p inject).length = 23 + p.length := by
  rw [dataFrame_eq]
  simp
  omega

@[simp] theorem controlHeader_length (k : Byte) : (controlHeader k).length = 17 := by simp [controlHeader]

@[simp] theorem controlIdFrame_length (k : Byte) (id : Id) : (controlIdFrame k id).length = 25 := by simp [controlIdFrame]

/-- The code of a kind row is DECODE's (R121). -/
@[simp] theorem commandCode_frameUnknown (k : Byte) : commandCode (.frameUnknown k) = 3#3 := rfl

/-- A command code runs under itself. -/
theorem commandCode_decodeCommand (c : Code) : commandCode (decodeCommand c) = c := by
  revert c
  decide

theorem dataFileReads_lt {m : Memory} {n a : Nat} (h : DataFileReads m n a) : a < n := by
  rcases h with ⟨h1, rfl | rfl | ⟨-, h⟩⟩ <;> omega

/-- VALIDATE reads below INLEN (R61). -/
theorem validateReads_lt {m : Memory} {n a : Nat} (h : ValidateReads m n a) : a < n := by
  rcases h with ⟨h1, rfl | ⟨k, -, -, h⟩⟩
  · omega
  · exact dataFileReads_lt h

/-- DECODE reads below INLEN (R61). -/
theorem decodeReads_lt {c : Config} {m : Memory} {n a : Nat} (h : DecodeReads c m n a) : a < n := by
  rcases h with ⟨h1, rfl | ⟨k, -, ⟨-, h⟩ | ⟨needed, -, h2, ⟨-, h3⟩ | ⟨-, h3, -⟩⟩⟩⟩
  · omega
  · exact dataFileReads_lt h
  · omega
  · rcases h2 with rfl | ⟨-, h2⟩ <;> omega

/-- The length rule is check (4) of DECODE (R121) over the bytes 17 and 18. -/
theorem lengthRule_of_memRead {r : Request} {n len : Nat} (h : memRead r 17 2 = .ok len) (hn : 23 + len = n) :
    LengthRule r.inbuf n := by
  obtain ⟨bs, hl, hb, rfl⟩ := memRead_eq_ok.1 h
  have := memRead_lt h
  refine ⟨by omega, by omega, ?_⟩
  rw [show n - 23 = beNat bs by omega, bytesBE_beNat hl]
  exact hb

/-- Under the length rule DECODE and VALIDATE read payloadLength as n - 23. -/
theorem memRead_of_lengthRule {r : Request} {n : Nat} (h : LengthRule r.inbuf n) : memRead r 17 2 = .ok (n - 23) := by
  have e := memRead_of_holds (r := r) h.2.2
  rwa [bytesBE_length, beNat_bytesBE (by have := h.2.1; omega)] at e

/-- Everything an arm of DECODE can answer (R121). -/
theorem decodeArm_ok {c : Config} {r : Request} {n : Nat} {k : Byte} {p : Response} (h : decodeArm c r n k = .ok p) :
    (p = Response.finish statusMalformed ∨ p = Response.finish statusUnknownKind) ∨
    (∃ seq next checksum, ∃ bs : List Byte, kindClass k = .dataFile ∧ 23 + bs.length = n ∧
      p = { frameOut bs bs.length with
        dKind := some k, dSeq := some seq, dNext := some next, dLen := some (BitVec.ofNat 16 bs.length),
        dChecksum := some checksum }) ∨
    (∃ id, kindClass k = .controlId ∧ p = controlDecoded k (some id)) ∨
    (kindClass k = .handshake ∧ p = controlDecoded k none) := by
  unfold decodeArm at h
  split at h
  · rcases decodeDataFile_ok h with rfl | ⟨seq, next, ck, bs, h1, -, -, -, -, -, -, rfl⟩
    · exact .inl (.inl rfl)
    · exact .inr (.inl ⟨_, _, _, bs, ‹_›, by omega, rfl⟩)
  · rcases decodeControlId_ok h with rfl | ⟨id, -, -, -, rfl⟩
    · exact .inl (.inl rfl)
    · exact .inr (.inr (.inl ⟨_, ‹_›, rfl⟩))
  · rcases decodeHandshake_ok h with rfl | ⟨-, -, rfl⟩
    · exact .inl (.inl rfl)
    · exact .inr (.inr (.inr ⟨‹_›, rfl⟩))
  · simp only [Except.ok.injEq] at h
    exact .inl (.inr h.symm)

/-- What a kind row answers is what the arm of some kind answers, or MALFORMED (R121). -/
theorem frameResponse_arm {k : Byte} {c : Config} {r : Request} {p : Response} (h : frameResponse k c r = .ok p) :
    p = Response.finish statusMalformed ∨ ∃ n, r.inlen = some n ∧ decodeArm c r n k = .ok p := by
  obtain ⟨n, hn, ⟨-, rfl⟩ | ⟨-, h⟩⟩ := frameResponse_ok h
  · exact .inl rfl
  · exact .inr ⟨n, hn, h⟩

/-- The answers of DECODE and of a kind row. -/
theorem decoding_ok {i : Instr} (hi : commandCode i = 3#3) {c : Config} {r : Request} {p : Response}
    (h : instrResponse i c r = .ok p) :
    p = Response.finish statusMalformed ∨ ∃ n k, r.inlen = some n ∧ decodeArm c r n k = .ok p := by
  cases i <;> try (exact absurd hi (by decide))
  case decode =>
    obtain ⟨n, hn, ⟨-, rfl⟩ | ⟨k, -, -, h⟩⟩ := decodeResponse_ok h
    · exact .inl rfl
    · exact .inr ⟨n, k, hn, h⟩
  all_goals
    rcases frameResponse_arm h with rfl | ⟨n, hn, h⟩
    · exact .inl rfl
    · exact .inr ⟨n, _, hn, h⟩

/-- Everything a completion can answer: STATUS ≠ OK alone, or what its command's row of R55 lists. -/
theorem instrResponse_ok {i : Instr} {c : Config} {r : Request} {p : Response} (h : instrResponse i c r = .ok p) :
    (∃ st, st ≠ statusOk ∧ st ∈ statusesOf (commandCode i) ∧ p = Response.finish st) ∨
    (i = .crc32 ∧ ∃ v, p = { Response.finish statusOk with crc := some v }) ∨
    (i = .encodeData ∧ ∃ frame : List Byte, ∃ n, r.inlen = some n ∧ frame.length = 23 + n ∧ 23 + n ≤ c.bufBytes ∧
      p = frameOut frame frame.length) ∨
    (i = .encodeControl ∧ ∃ frame : List Byte, (frame.length = 25 ∨ frame.length = 17) ∧ p = frameOut frame frame.length) ∨
    (commandCode i = 3#3 ∧ ∃ k seq next checksum, ∃ bs : List Byte, kindClass k = .dataFile ∧ r.inlen = some (23 + bs.length) ∧
      p = { frameOut bs bs.length with
        dKind := some k, dSeq := some seq, dNext := some next, dLen := some (BitVec.ofNat 16 bs.length),
        dChecksum := some checksum }) ∨
    (commandCode i = 3#3 ∧ ∃ k id, kindClass k = .controlId ∧ p = controlDecoded k (some id)) ∨
    (commandCode i = 3#3 ∧ ∃ k, kindClass k = .handshake ∧ p = controlDecoded k none) ∨
    (i = .validate ∧ ∃ v ok, p = { Response.finish statusOk with crc := some v, crcOk := some ok }) := by
  by_cases hi : commandCode i = 3#3
  · rcases decoding_ok hi h with rfl | ⟨n, k, hn, h⟩
    · exact .inl ⟨_, by decide, by rw [hi]; decide, rfl⟩
    · rcases decodeArm_ok h with (rfl | rfl) | ⟨seq, next, ck, bs, hk, hl, rfl⟩ | ⟨id, hk, rfl⟩ | ⟨hk, rfl⟩
      · exact .inl ⟨_, by decide, by rw [hi]; decide, rfl⟩
      · exact .inl ⟨_, by decide, by rw [hi]; decide, rfl⟩
      · subst hl
        exact .inr (.inr (.inr (.inr (.inl ⟨hi, k, seq, next, ck, bs, hk, hn, rfl⟩))))
      · exact .inr (.inr (.inr (.inr (.inr (.inl ⟨hi, k, id, hk, rfl⟩)))))
      · exact .inr (.inr (.inr (.inr (.inr (.inr (.inl ⟨hi, k, hk, rfl⟩))))))
  · cases i
    case crc32 =>
      obtain ⟨bs, -, -, rfl⟩ := crc32Response_ok h
      exact .inr (.inl ⟨rfl, _, rfl⟩)
    case encodeData =>
      rcases encodeDataResponse_ok h with rfl | ⟨k, seq, next, bs, inject, -, -, hn, -, hb, -, -, -, -, rfl⟩
      · exact .inl ⟨_, by decide, by decide, rfl⟩
      · refine .inr (.inr (.inl ⟨rfl, dataFrame c seq next k bs inject, bs.length, hn, by simp, hb, ?_⟩))
        rw [dataFrame_length]
    case encodeControl =>
      rcases encodeControlResponse_ok h with rfl | ⟨k, id, -, -, -, rfl⟩ | ⟨k, -, -, rfl⟩
      · exact .inl ⟨_, by decide, by decide, rfl⟩
      · exact .inr (.inr (.inr (.inl ⟨rfl, controlIdFrame k id, .inl (by simp), by rw [controlIdFrame_length]⟩)))
      · exact .inr (.inr (.inr (.inl ⟨rfl, controlHeader k, .inr (by simp), by rw [controlHeader_length]⟩)))
    case validate =>
      obtain ⟨n, -, ⟨-, rfl⟩ | ⟨k, -, -, ⟨-, rfl⟩ | ⟨-, rfl⟩ | ⟨-, h⟩⟩⟩ := validateResponse_ok h
      · exact .inl ⟨_, by decide, by decide, rfl⟩
      · exact .inl ⟨_, by decide, by decide, rfl⟩
      · exact .inl ⟨_, by decide, by decide, rfl⟩
      · rcases validateDataFile_ok h with rfl | ⟨len, rec, cov, -, -, -, -, -, rfl⟩
        · exact .inl ⟨_, by decide, by decide, rfl⟩
        · exact .inr (.inr (.inr (.inr (.inr (.inr (.inr ⟨rfl, _, _, rfl⟩))))))
    case rsv5 =>
      simp only [instrResponse, reservedResponse, Except.ok.injEq] at h
      exact .inl ⟨_, by decide, by decide, h.symm⟩
    case rsv6 =>
      simp only [instrResponse, reservedResponse, Except.ok.injEq] at h
      exact .inl ⟨_, by decide, by decide, h.symm⟩
    case rsv7 =>
      simp only [instrResponse, reservedResponse, Except.ok.injEq] at h
      exact .inl ⟨_, by decide, by decide, h.symm⟩
    all_goals exact absurd rfl hi

end Sys2Proof.Machine
end

