-- ==== Sys2Proof/Laws/PerInstr.lean ====
section
/-! SUPPORT. Statements for all instructions, one lemma per constructor. -/

namespace Sys2Proof.Laws.EncodingFits

/-- An instruction's code fits the place it stands in: CMD's three bits for a command (R32), one byte for a kind (R7). -/
def Statement (i : Instr) : Prop := (encode i).1 = .command → (encode i).2.toNat < 8

theorem crc32 : Statement .crc32 := by unfold Statement; decide
theorem encodeData : Statement .encodeData := by unfold Statement; decide
theorem encodeControl : Statement .encodeControl := by unfold Statement; decide
theorem decode : Statement .decode := by unfold Statement; decide
theorem validate : Statement .validate := by unfold Statement; decide
theorem rsv5 : Statement .rsv5 := by unfold Statement; decide
theorem rsv6 : Statement .rsv6 := by unfold Statement; decide
theorem rsv7 : Statement .rsv7 := by unfold Statement; decide
theorem frameData : Statement .frameData := by unfold Statement; decide
theorem frameRequest : Statement .frameRequest := by unfold Statement; decide
theorem frameFile : Statement .frameFile := by unfold Statement; decide
theorem frameSuccess : Statement .frameSuccess := by unfold Statement; decide
theorem frameHandshakeAck : Statement .frameHandshakeAck := by unfold Statement; decide
theorem frameHandshakeRequest : Statement .frameHandshakeRequest := by unfold Statement; decide
theorem frameUnknown (k : Byte) : Statement (.frameUnknown k) := by simp [Statement, encode]

end Sys2Proof.Laws.EncodingFits
end

