-- ==== Sys2Proof/Laws/Step.lean ====
section
/-! SUPPORT. What a step can do, said once (`step_cases`), and the frame of each host move. -/

namespace Sys2Proof.Machine

/-- Everything a block step that answers a next state can do (R54). -/
theorem blockStep_cases {s t : State} (h : blockStep s = .next t) :
    (s.busy = false ∧ t = s) ∨
    ∃ c p, s.busy = true ∧ s.req.cmd = some c ∧ instrResponse (decodeCommand c) s.cfg s.req = .ok p ∧ t = s.completed p := by
  unfold blockStep at h
  split at h
  · rename_i hb
    split at h
    · rename_i i hi
      simp only [fetch, except_bind_eq_ok, need_eq_ok, except_pure, Except.ok.injEq] at hi
      obtain ⟨c, hc, rfl⟩ := hi
      obtain ⟨p, hp, ht⟩ := exec_eq_next.1 h
      exact .inr ⟨c, p, hb, hc, hp, ht⟩
    · simp at h
  · simp at h; exact .inl ⟨by simp_all, h.symm⟩

@[simp] theorem readDone_ok {α : Type} (s : State) (v : α) : readDone s (.ok v) = .next s := rfl
@[simp] theorem readDone_error {α : Type} (s : State) (f : Fault) : readDone s (.error f : Except Fault α) = .fault f := rfl

/-- A read that answers a next state leaves the block as it was (R67). -/
theorem readDone_eq_next {α : Type} {s t : State} {x : Except Fault α} :
    readDone s x = .next t ↔ ∃ v, x = .ok v ∧ t = s := by
  cases x <;> simp [eq_comm]

@[simp] theorem hostReadOutbuf_zero (s : State) (a : Nat) : hostReadOutbuf s a 0 = .ok [] := rfl

theorem hostReadOutbuf_succ (s : State) (a n : Nat) : hostReadOutbuf s a (n + 1) =
    (hostRead s (.outbuf a) >>= fun b => hostReadOutbuf s (a + 1) n >>= fun bs => pure (b :: bs)) := rfl

/-- A grouped read answers a string exactly when each of its bytes reads alone. -/
theorem hostReadOutbuf_eq_ok {s : State} {a n : Nat} {bs : List Nat} :
    hostReadOutbuf s a n = .ok bs ↔
      bs.length = n ∧ ∀ i, (h : i < bs.length) → hostRead s (.outbuf (a + i)) = .ok bs[i] := by
  induction n generalizing a bs with
  | zero => cases bs <;> simp
  | succ n ih =>
    simp only [hostReadOutbuf_succ, except_bind_eq_ok, except_pure, Except.ok.injEq]
    cases bs with
    | nil => simp
    | cons b bs =>
      simp only [List.length_cons, Nat.add_right_cancel_iff, List.cons.injEq]
      constructor
      · rintro ⟨b', h1, bs', h2, rfl, rfl⟩
        refine ⟨(ih.1 h2).1, fun i hi => ?_⟩
        cases i with
        | zero => simpa using h1
        | succ i => simpa [Nat.add_assoc, Nat.add_comm 1] using (ih.1 h2).2 i (by omega)
      · rintro ⟨h1, h2⟩
        refine ⟨b, by simpa using h2 0 (by omega), bs, ih.2 ⟨h1, fun i hi => ?_⟩, rfl, rfl⟩
        have := h2 (i + 1) (by omega)
        simpa [Nat.add_assoc, Nat.add_comm 1] using this

/-- The fault of a grouped read is that of the first of its bytes that faults. -/
theorem hostReadOutbuf_eq_error {s : State} {a n : Nat} {f : Fault} :
    hostReadOutbuf s a n = .error f ↔
      ∃ i, i < n ∧ hostRead s (.outbuf (a + i)) = .error f ∧ ∀ j, j < i → ∃ v, hostRead s (.outbuf (a + j)) = .ok v := by
  induction n generalizing a with
  | zero => simp
  | succ n ih =>
    simp only [hostReadOutbuf_succ, except_bind_eq_error, except_pure, ih]
    constructor
    · rintro (h | ⟨b, h1, ⟨i, hi, h2, h3⟩ | ⟨bs, -, h2⟩⟩)
      · exact ⟨0, by omega, by simpa using h, by omega⟩
      · refine ⟨i + 1, by omega, by simpa [Nat.add_assoc, Nat.add_comm 1] using h2, fun j hj => ?_⟩
        cases j with
        | zero => exact ⟨b, by simpa using h1⟩
        | succ j => simpa [Nat.add_assoc, Nat.add_comm 1] using h3 j (by omega)
      · exact absurd h2 (by simp)
    · rintro ⟨i, hi, h2, h3⟩
      cases i with
      | zero => exact .inl (by simpa using h2)
      | succ i =>
        obtain ⟨b, hb⟩ := h3 0 (by omega)
        refine .inr ⟨b, by simpa using hb, .inl ⟨i, by omega, by simpa [Nat.add_assoc, Nat.add_comm 1] using h2,
          fun j hj => ?_⟩⟩
        simpa [Nat.add_assoc, Nat.add_comm 1] using h3 (j + 1) (by omega)

/-- Everything a host move that answers a next state can do. -/
theorem hostMove_cases {m : HostMove} {s t : State} (h : hostMove m s = .next t) :
    (∃ v, m = .writeSeq v ∧ s.busy = false ∧ t = s.withReq { s.req with seq := some v }) ∨
    (∃ v, m = .writeNext v ∧ s.busy = false ∧ t = s.withReq { s.req with next := some v }) ∨
    (∃ v, m = .writeKind v ∧ s.busy = false ∧ t = s.withReq { s.req with kind := some v }) ∨
    (∃ v, m = .writeReqid v ∧ s.busy = false ∧ t = s.withReq { s.req with reqid := some v }) ∨
    (∃ v, m = .writeInject v ∧ s.busy = false ∧ t = s.withReq { s.req with inject := some v }) ∨
    (∃ n, m = .writeInlen n ∧ s.busy = false ∧ n ≤ s.cfg.bufBytes ∧ t = s.withReq { s.req with inlen := some n }) ∨
    (∃ a bs, m = .writeInbuf a bs ∧ s.busy = false ∧ a + bs.length ≤ s.cfg.bufBytes ∧
      t = s.withReq { s.req with inbuf := Memory.writeBytes s.req.inbuf a bs }) ∨
    (∃ c, m = .writeCmd c ∧ s.busy = false ∧ t = s.issued c) ∨
    (∃ r v, m = .read r ∧ hostRead s r = .ok v ∧ t = s) ∨
    (∃ a n bs, m = .readOutbuf a n ∧ hostReadOutbuf s a n = .ok bs ∧ t = s) ∨
    (m = .reset ∧ t = s.resetEvent) ∨
    (m = .wait ∧ t = s) := by
  cases m <;> simp only [hostMove, hostWrite, hostWriteInlen, hostWriteInbuf, hostIssue] at h
  case read r =>
    obtain ⟨v, hv, rfl⟩ := readDone_eq_next.1 h
    simp [hv]
  case readOutbuf a n =>
    obtain ⟨bs, hbs, rfl⟩ := readDone_eq_next.1 h
    simp [hbs]
  case reset => simp at h; simp [h]
  case wait => simp at h; simp [h]
  all_goals
    split at h
    · simp at h
    · first
        | (simp at h; simp_all)
        | (split at h
           · simp at h; simp_all
           · simp at h)

/-- Everything a step that answers a next state can do. -/
theorem step_cases {s t : State} (h : step s = .next t) :
    (s.hostMoves = [] ∧ s.faultRecord = none ∧ blockStep s = .next t) ∨
    (∃ rest, s.hostMoves = .wait :: rest ∧ s.faultRecord = none ∧ blockStep (s.withMoves rest) = .next t) ∨
    (∃ rest, s.hostMoves = .reset :: rest ∧ t = (s.withMoves rest).resetEvent) ∨
    (∃ m rest, s.hostMoves = m :: rest ∧ m ≠ .reset ∧ m ≠ .wait ∧ s.faultRecord = none ∧
      hostMove m (s.withMoves rest) = .next t) := by
  unfold step at h
  split at h
  · split at h
    · simp at h
    · exact .inl ⟨‹_›, ‹_›, h⟩
  · rename_i m rest hm
    split at h
    · rename_i hr
      subst hr
      simp only [hostMove, Host.Outcome.next.injEq] at h
      exact .inr (.inr (.inl ⟨rest, hm, h.symm⟩))
    · split at h
      · simp at h
      · split at h
        · rename_i hw
          subst hw
          exact .inr (.inl ⟨rest, hm, ‹_›, h⟩)
        · exact .inr (.inr (.inr ⟨m, rest, hm, ‹_›, ‹_›, ‹_›, h⟩))

@[simp] theorem run_zero (s : State) : run 0 s = .next s := rfl

theorem run_succ (n : Nat) (s : State) :
    run (n + 1) s = (match step s with
      | .next t => run n t
      | .fault f => .fault f
      | .refused r => .refused r) := rfl

/-- A run whose first step answers a next state goes on from it. -/
theorem run_of_step {n : Nat} {s t : State} (h : step s = .next t) : run (n + 1) s = run n t := by
  rw [run_succ, h]

/-- One step is a run of one step. -/
theorem run_one (s : State) : run 1 s = step s := by
  rw [run_succ]
  cases step s <;> rfl

/-- A live block with a pending command and no host move before it completes the command. -/
theorem step_pending {s : State} {c : Code} (hm : s.hostMoves = []) (hf : s.faultRecord = none) (hb : s.busy = true)
    (hc : s.req.cmd = some c) : step s = exec (decodeCommand c) s := by
  simp [step, hm, hf, blockStep, hb, fetch, hc]

/-- The same after a `wait` of the host. -/
theorem step_wait {s : State} {c : Code} {rest : List HostMove} (hm : s.hostMoves = .wait :: rest)
    (hf : s.faultRecord = none) (hb : s.busy = true) (hc : s.req.cmd = some c) :
    step s = exec (decodeCommand c) (s.withMoves rest) := by
  simp [step, hm, hf, blockStep, hb, fetch, hc]

/-- A host move of a live block that is neither reset nor a wait. -/
theorem step_hostMove {s : State} {m : HostMove} {rest : List HostMove} (hm : s.hostMoves = m :: rest)
    (hf : s.faultRecord = none) (hr : m ≠ .reset) (hw : m ≠ .wait) : step s = hostMove m (s.withMoves rest) := by
  simp [step, hm, hf, hr, hw]

end Sys2Proof.Machine
end

