-- ==== Sys2Proof/Tests/Slice0.lean ====
section
/-! SUPPORT. The model's own tests. Part one checks words and vectors of the spec (95_test_vectors.md, ids V1 to V99, and the rules'
own worked examples); part two shows, for every statement with hypotheses, states and operands that meet them (`witness_…`). -/

namespace Sys2Proof.Tests

-- One test after another: elaborated side by side, their threads' stacks alone come near the check's memory limit.
set_option Elab.async false

open Sys2Proof Sys2Proof.Machine

/- ## Reading an outcome -/

/-- The state of an outcome that is a next state. -/
def nextOf : Host.Outcome State Fault Refusal → Option State
  | .next t => some t
  | .fault _ => none
  | .refused _ => none

/-- The fault of an outcome that is one. -/
def faultOf : Host.Outcome State Fault Refusal → Option Fault
  | .next _ => none
  | .fault f => some f
  | .refused _ => none

/-- The refusal of an outcome that is one. -/
def refusalOf : Host.Outcome State Fault Refusal → Option Refusal
  | .next _ => none
  | .fault _ => none
  | .refused r => some r

/-- The response of an outcome that is a next state. -/
def respOf (x : Host.Outcome State Fault Refusal) : Option Response := (nextOf x).map State.resp

theorem eq_next {x : Host.Outcome State Fault Refusal} {t : State} (h : nextOf x = some t) : x = .next t := by
  cases x <;> simp_all [nextOf]

theorem eq_fault {x : Host.Outcome State Fault Refusal} {f : Fault} (h : faultOf x = some f) : x = .fault f := by
  cases x <;> simp_all [faultOf]

/-- A completion with a response. -/
theorem exec_of_resp {i : Instr} {s : State} {r : Response} (h : respOf (exec i s) = some r) :
    exec i s = .next (s.completed r) := by
  rw [exec_eq] at h ⊢
  cases hp : instrResponse i s.cfg s.req with
  | ok p =>
    rw [hp] at h
    simp only [completeWith_ok, respOf, nextOf, Option.map_some, State.completed_resp, Option.some.injEq] at h
    rw [h, completeWith_ok]
  | error f =>
    rw [hp] at h
    simp [respOf, nextOf] at h

/- ## Small states -/

/-- A block with other request registers, at reset otherwise. -/
def idle (r : Request) : State := { State.reset with req := r }

/-- A byte string in INBUF and its length in INLEN. -/
def inputReq (bs : List Byte) : Request := { Request.blank with inlen := some bs.length, inbuf := Memory.ofBytes 0 bs }

/-- A block whose input is a byte string. -/
def input (bs : List Byte) : State := idle (inputReq bs)

/-- A block with the operands of ENCODE_DATA. -/
def dataState (seq next : Id) (k : Byte) (inject : Bool) (p : List Byte) : State :=
  idle { inputReq p with seq := some seq, next := some next, kind := some k, inject := some inject }

/-- A block with the operands of ENCODE_CONTROL. -/
def controlState (k : Byte) (id : Option Id) : State := idle { Request.blank with kind := some k, reqid := id }

/-- A state under another configuration. -/
def under (s : State) (len : LenPolicy) (zero : ZeroPolicy) : State :=
  { s with cfg := { s.cfg with lenPolicy := len, zeroPolicy := zero } }

/-- A state with a small buffer. -/
def small (s : State) (n : Nat) : State := { s with cfg := { s.cfg with bufBytes := n } }

/-- The frame of fragment 1 of "hi" (V9). -/
def hi1 : List Byte :=
  [0x00#8, 0x00#8, 0x00#8, 0x00#8, 0x00#8, 0x00#8, 0x00#8, 0x01#8, 0x00#8, 0x00#8, 0x00#8, 0x00#8, 0x00#8, 0x00#8, 0x00#8, 0x02#8,
   0x00#8, 0x00#8, 0x01#8, 0x68#8, 0xF2#8, 0xF1#8, 0xC9#8, 0x43#8]

/-- The covered bytes of "x" (V11, V12). -/
def xBody : List Byte :=
  [0x00#8, 0x00#8, 0x00#8, 0x00#8, 0x00#8, 0x00#8, 0x00#8, 0x01#8, 0x00#8, 0x00#8, 0x00#8, 0x00#8, 0x00#8, 0x00#8, 0x00#8, 0x00#8,
   0x00#8, 0x00#8, 0x01#8, 0x78#8]

/-- The frame of "x", clean (V11). -/
def xClean : List Byte := xBody ++ [0x95#8, 0x86#8, 0x8A#8, 0x47#8]

/-- The frame of "x", injected (V12). -/
def xInjected : List Byte := xBody ++ [0x95#8, 0x86#8, 0x8A#8, 0x48#8]

/-- Sixteen zero bytes: the zero fields of a control frame (R84). -/
def zeros16 : List Byte :=
  [0x00#8, 0x00#8, 0x00#8, 0x00#8, 0x00#8, 0x00#8, 0x00#8, 0x00#8, 0x00#8, 0x00#8, 0x00#8, 0x00#8, 0x00#8, 0x00#8, 0x00#8, 0x00#8]

/-- REQUEST 2 (V24). -/
def request2 : List Byte := zeros16 ++ [0x01#8, 0x00#8, 0x00#8, 0x00#8, 0x00#8, 0x00#8, 0x00#8, 0x00#8, 0x02#8]

/-- A HANDSHAKE_REQUEST with a zero field of 1 (V56, V57). -/
def oddHandshake : List Byte :=
  [0x00#8, 0x00#8, 0x00#8, 0x00#8, 0x00#8, 0x00#8, 0x00#8, 0x01#8, 0x00#8, 0x00#8, 0x00#8, 0x00#8, 0x00#8, 0x00#8, 0x00#8, 0x00#8,
   0xFF#8]

/-- Only STATUS. -/
def only (st : BitVec 3) : Response := { Response.blank with status := some st }

/- ## Decoding: words written out from R80, R82, R86 and R88 -/

theorem test_word_crc32 : decodeCommand 0b000#3 = .crc32 := by decide
theorem test_word_encode_data : decodeCommand 0b001#3 = .encodeData := by decide
theorem test_word_encode_control : decodeCommand 0b010#3 = .encodeControl := by decide
theorem test_word_decode : decodeCommand 0b011#3 = .decode := by decide
theorem test_word_validate : decodeCommand 0b100#3 = .validate := by decide
theorem test_word_rsv5 : decodeCommand 0b101#3 = .rsv5 := by decide
theorem test_word_rsv6 : decodeCommand 0b110#3 = .rsv6 := by decide
theorem test_word_rsv7 : decodeCommand 0b111#3 = .rsv7 := by decide
theorem test_word_frame_data : decodeKind 0b00000000#8 = .frameData := by decide
theorem test_word_frame_request : decodeKind 0b00000001#8 = .frameRequest := by decide
theorem test_word_frame_file : decodeKind 0b00000010#8 = .frameFile := by decide
theorem test_word_frame_success : decodeKind 0b11001000#8 = .frameSuccess := by decide
theorem test_word_frame_handshake_ack : decodeKind 0b11111110#8 = .frameHandshakeAck := by decide
theorem test_word_frame_handshake_request : decodeKind 0b11111111#8 = .frameHandshakeRequest := by decide
theorem test_word_frame_unknown : decodeKind 0x03#8 = .frameUnknown 0x03#8 ∧ decodeKind 0xC7#8 = .frameUnknown 0xC7#8 ∧
    decodeKind 0xC9#8 = .frameUnknown 0xC9#8 ∧ decodeKind 0xFD#8 = .frameUnknown 0xFD#8 := by decide

/-- CMD is three bits (R32): a ninth command does not decode, nor does an empty string. -/
theorem test_decode_rejects : decode .command [0x08#8] = .error (.notACommandCode 0x08#8) ∧ decode .kind [] = .error .noByte := by
  constructor <;> rfl

/-- WellFormed refuses an unknown-kind row that names each of the six kind codes (R86, R88), and accepts its neighbours. -/
theorem test_wf_refuses : (Instr.frameUnknown 0x00#8).wf = false ∧ (Instr.frameUnknown 0x01#8).wf = false ∧
    (Instr.frameUnknown 0x02#8).wf = false ∧ (Instr.frameUnknown 0xC8#8).wf = false ∧
    (Instr.frameUnknown 0xFE#8).wf = false ∧ (Instr.frameUnknown 0xFF#8).wf = false ∧
    (Instr.frameUnknown 0x03#8).wf = true ∧ (Instr.frameUnknown 0xFD#8).wf = true := by decide

/-- The rows' bits as the table numbers them (log entry 6). -/
theorem test_table_words : decodeTableWord 8 0x3 = some .decode ∧ decodeTableWord 8 0xC8 = some .frameSuccess ∧
    decodeTableWord 8 0x0 = some .crc32 ∧ decodeTableWord 3 0x7 = some .rsv7 ∧ decodeTableWord 8 0x100 = none := by decide

/-- A placed row runs as the first instruction after reset (log entry 7). -/
theorem test_placed_rows :
    respOf (step (State.reset.withFetchWord 8 0x7)) = some (only statusIllegalCommand) ∧
    respOf (step (State.reset.withFetchWord 8 0xFE)) =
      some { only statusOk with outlen := some 0, dKind := some 0xFE#8 } ∧
    respOf (step (State.reset.withFetchWord 8 0x03)) = some (only statusMalformed) ∧
    respOf (step (State.reset.withFetchWord 8 0x2A)) = some (only statusUnknownKind) := by decide +kernel

/- ## The commands -/

/-- V1, V3. -/
theorem test_crc32 : respOf (exec .crc32 (input [])) = some { only statusOk with crc := some 0x00000000#32 } ∧
    respOf (exec .crc32 (input [0x00#8])) = some { only statusOk with crc := some 0xD202EF8D#32 } := by decide +kernel

/-- V8: INBUF[2] is ⊥. -/
theorem test_crc32_unwritten :
    faultOf (exec .crc32 (idle { inputReq [0x01#8, 0x02#8] with inlen := some 3 })) = some (.unwrittenOperand (.inbuf 2)) := by
  decide +kernel

/-- V9. -/
theorem test_encode_data : respOf (exec .encodeData (dataState 1#64 2#64 0x00#8 false [0x68#8])) =
    some { only statusOk with outlen := some 24, outbuf := Memory.ofBytes 0 hi1 } := by decide +kernel

/-- V14: the injected byte wraps and nothing carries. -/
theorem test_encode_data_inject_wraps :
    (respOf (exec .encodeData (dataState 1#64 0#64 0x00#8 true [0x81#8]))).map
      (fun r => (List.range 4).map (fun i => Memory.read r.outbuf (20 + i))) =
    some [some 0x51#8, some 0xE7#8, some 0xC0#8, some 0x00#8] := by decide +kernel

/-- V21, V22, V23. -/
theorem test_encode_data_checks :
    respOf (exec .encodeData (idle { (dataState 1#64 0#64 0x00#8 false []).req with inlen := some 65536 })) =
      some (only statusBadOperand) ∧
    faultOf (exec .encodeData (idle { (dataState 1#64 0#64 0x00#8 false [0x68#8]).req with seq := none })) =
      some (.unwrittenOperand .seq) ∧
    respOf (exec .encodeData (controlState 0x01#8 none)) = some (only statusBadOperand) := by decide +kernel

/-- V24, V28. -/
theorem test_encode_control : respOf (exec .encodeControl (controlState 0x01#8 (some 2#64))) =
      some { only statusOk with outlen := some 25, outbuf := Memory.ofBytes 0 request2 } ∧
    respOf (exec .encodeControl (controlState 0xFF#8 none)) =
      some { only statusOk with outlen := some 17, outbuf := Memory.ofBytes 0 (zeros16 ++ [0xFF#8]) } := by decide +kernel

/-- V30, V32. -/
theorem test_encode_control_checks : respOf (exec .encodeControl (controlState 0x00#8 (some 1#64))) = some (only statusBadOperand) ∧
    faultOf (exec .encodeControl (controlState 0x01#8 none)) = some (.unwrittenOperand .reqid) := by decide +kernel

/-- V33, which is also the row FRAME_DATA. -/
theorem test_decode_data :
    respOf (exec .decode (input hi1)) = some { only statusOk with
      outlen := some 1, outbuf := [(0, 0x68#8)], dKind := some 0x00#8, dSeq := some 1#64, dNext := some 2#64,
      dLen := some 1#16, dChecksum := some 0xF2F1C943#32 } ∧
    respOf (exec .frameData (input hi1)) = respOf (exec .decode (input hi1)) := by decide +kernel

/-- V42, V43, V44, V46: the order of the checks. -/
theorem test_decode_order :
    respOf (exec .decode (input zeros16)) = some (only statusMalformed) ∧
    respOf (exec .decode (input (zeros16 ++ [0x03#8]))) = some (only statusUnknownKind) ∧
    respOf (exec .decode (input (zeros16 ++ [0x00#8]))) = some (only statusMalformed) ∧
    respOf (exec .decode (input (hi1.take 23))) = some (only statusMalformed) := by decide +kernel

/-- V59: the largest sequenceID, kind FILE. -/
theorem test_frame_file :
    (respOf (exec .frameFile (input [0xFF#8, 0xFF#8, 0xFF#8, 0xFF#8, 0xFF#8, 0xFF#8, 0xFF#8, 0xFF#8, 0x00#8, 0x00#8, 0x00#8, 0x00#8,
      0x00#8, 0x00#8, 0x00#8, 0x00#8, 0x02#8, 0x00#8, 0x01#8, 0xAA#8, 0x69#8, 0xAA#8, 0xF8#8, 0x69#8]))).map
      (fun r => (r.dKind, r.dSeq, r.dChecksum)) =
    some (some 0x02#8, some 18446744073709551615#64, some 0x69AAF869#32) := by decide +kernel

/-- V37, V51, V52: REQUEST under both length policies. -/
theorem test_frame_request :
    respOf (exec .frameRequest (input request2)) =
      some { only statusOk with outlen := some 0, dKind := some 0x01#8, dReqid := some 2#64 } ∧
    respOf (exec .frameRequest (input (request2 ++ [0x00#8]))) = some (only statusMalformed) ∧
    respOf (exec .frameRequest (under (input (request2 ++ [0x00#8])) .atLeast .ignore)) =
      some { only statusOk with outlen := some 0, dKind := some 0x01#8, dReqid := some 2#64 } := by decide +kernel

/-- V38. -/
theorem test_frame_success : respOf (exec .frameSuccess (input (zeros16 ++ 0xC8#8 :: List.replicate 8 0x00#8))) =
    some { only statusOk with outlen := some 0, dKind := some 0xC8#8, dReqid := some 0#64 } := by decide +kernel

/-- V40. -/
theorem test_frame_handshake_ack : respOf (exec .frameHandshakeAck (input (zeros16 ++ [0xFE#8]))) =
    some { only statusOk with outlen := some 0, dKind := some 0xFE#8 } := by decide +kernel

/-- V56, V57: a zero field of 1 under both zero policies. -/
theorem test_frame_handshake_request :
    respOf (exec .frameHandshakeRequest (input oddHandshake)) =
      some { only statusOk with outlen := some 0, dKind := some 0xFF#8 } ∧
    respOf (exec .frameHandshakeRequest (under (input oddHandshake) .exact .requireZero)) = some (only statusMalformed) := by
  decide +kernel

/-- V60, V61: bytes 0 to 15 are ⊥. -/
theorem test_decode_zero_fields_unread :
    respOf (exec .decode (idle { Request.blank with inlen := some 17, inbuf := [(16, 0xFF#8)] })) =
      some { only statusOk with outlen := some 0, dKind := some 0xFF#8 } ∧
    faultOf (exec .decode (under (idle { Request.blank with inlen := some 17, inbuf := [(16, 0xFF#8)] }) .exact .requireZero)) =
      some (.unwrittenOperand (.inbuf 0)) := by decide +kernel

/-- V43 as the row FRAME_UNKNOWN. -/
theorem test_frame_unknown : respOf (exec (.frameUnknown 0x03#8) (input (zeros16 ++ [0x03#8]))) = some (only statusUnknownKind) := by
  decide +kernel

/-- V62, V64. -/
theorem test_validate : respOf (exec .validate (input hi1)) =
      some { only statusOk with crc := some 0xF2F1C943#32, crcOk := some true } ∧
    respOf (exec .validate (input xInjected)) =
      some { only statusOk with crc := some 0x95868A47#32, crcOk := some false } := by decide +kernel

/-- V68, V70, V71, V72. -/
theorem test_validate_checks : respOf (exec .validate (input request2)) = some (only statusBadOperand) ∧
    respOf (exec .validate (input zeros16)) = some (only statusMalformed) ∧
    respOf (exec .validate (input (hi1.set 16 0xC9#8))) = some (only statusUnknownKind) ∧
    respOf (exec .validate (input (hi1.take 23))) = some (only statusMalformed) := by decide +kernel

/-- V88, V89, V90. -/
theorem test_rsv5 : respOf (exec .rsv5 State.reset) = some (only statusIllegalCommand) := by decide +kernel
theorem test_rsv6 : respOf (exec .rsv6 State.reset) = some (only statusIllegalCommand) := by decide +kernel
theorem test_rsv7 : respOf (exec .rsv7 State.reset) = some (only statusIllegalCommand) := by decide +kernel

/- ## The protocol -/

/-- CRC32 of "a", issued and pending (V93). -/
def pendingCrc (ms : List HostMove) : State := ((input [0x61#8]).issued 0#3).withMoves ms

/-- V92: a read of STATUS after reset. -/
theorem test_read_after_reset :
    faultOf (step (State.reset.withMoves [.read .status])) = some (.unwrittenResponse .status) := by decide +kernel

/-- V93: BUSY = 1 and RESP_VALID = 0 are readable while the command is pending. -/
theorem test_read_while_busy : (hostRead (pendingCrc []) .busy).toOption = some 1 ∧
    (hostRead (pendingCrc []) .respValid).toOption = some 0 := by decide +kernel

/-- V94, V95: no move. -/
theorem test_no_move : refusalOf (step (pendingCrc [.writeCmd 0#3])) = some .issueWhileBusy ∧
    refusalOf (step (pendingCrc [.writeInbuf 0 [0x00#8]])) = some .requestWriteWhileBusy := by decide +kernel

/-- V96, V97. -/
theorem test_pending_read_and_reset : faultOf (step (pendingCrc [.read .crc])) = some (.unwrittenResponse .crc) ∧
    nextOf (step (pendingCrc [.reset])) = some State.reset := by decide +kernel

/-- R65: a grouped read of OUTBUF gives the bytes in order (V24: bytes 15 and 16 of REQUEST 2), and faults past OUTLEN. -/
theorem test_grouped_read :
    (hostReadOutbuf ((input []).completed (frameOut request2 25)) 15 2).toOption = some [0x00, 0x01] ∧
    faultOf (step (((input []).completed (frameOut request2 25)).withMoves [.readOutbuf 23 3])) =
      some (.unwrittenResponse (.outbuf 25)) := by decide +kernel

/-- V4: the pending command completes. -/
theorem test_pending_completes : respOf (step (pendingCrc [])) = some { only statusOk with crc := some 0xE8B7BE43#32 } := by
  decide +kernel

/-- R95: the pseudo-command ENC_REQUEST 2 gives the host moves of its expansion. -/
theorem test_pseudo_command :
    (encRequest 2#64).moves = [.writeKind 0x01#8, .writeReqid 2#64, .writeCmd 2#3] := by decide

/- ## Witnesses: states and operands that meet the statements' hypotheses -/

theorem bufferHolds_ofBytes (bs : List Byte) : BufferHolds (Memory.ofBytes 0 bs) 0 bs := by
  intro i _
  simp

theorem hasInput_input (bs : List Byte) : HasInput (input bs) bs := ⟨rfl, bufferHolds_ofBytes bs⟩

theorem hasInput_data (seq next : Id) (k : Byte) (inject : Bool) (p : List Byte) : HasInput (dataState seq next k inject p) p :=
  ⟨rfl, bufferHolds_ofBytes p⟩

theorem encodesData_of_resp {e : State} {frame : List Byte} (h : respOf (exec .encodeData e) =
    some { only statusOk with outlen := some frame.length, outbuf := Memory.ofBytes 0 frame }) : EncodesData e frame :=
  ⟨_, exec_of_resp h, rfl, rfl, rfl⟩

theorem encodesControl_of_resp {e : State} {frame : List Byte} (h : respOf (exec .encodeControl e) =
    some { only statusOk with outlen := some frame.length, outbuf := Memory.ofBytes 0 frame }) : EncodesControl e frame :=
  ⟨_, exec_of_resp h, rfl, rfl, rfl⟩

theorem encodes_xClean : EncodesData (dataState 1#64 0#64 0x00#8 false [0x78#8]) xClean :=
  encodesData_of_resp (by decide +kernel)

theorem encodes_xInjected : EncodesData (dataState 1#64 0#64 0x00#8 true [0x78#8]) xInjected :=
  encodesData_of_resp (by decide +kernel)

theorem encodes_request2 : EncodesControl (controlState 0x01#8 (some 2#64)) request2 := encodesControl_of_resp (by decide +kernel)

/-- A block that is faulted (log entry 5). -/
def faulted (ms : List HostMove) : State :=
  { (pendingCrc ms) with faultRecord := some (.unwrittenOperand .inlen) }

/-- A block with its response registers valid (V4). -/
def responded (ms : List HostMove) : State :=
  ((pendingCrc ms).completed { only statusOk with crc := some 0xE8B7BE43#32 })

theorem witness_DecodeOfEncode : Instr.rsv7.wf = true ∧ Instr.frameHandshakeRequest.wf = true ∧
    (Instr.frameUnknown 0x03#8).wf = true ∧ (Instr.frameUnknown 0xFD#8).wf = true := by decide

theorem witness_EncodeOfDecode : decode .command [0x07#8, 0x00#8] = .ok (.rsv7, [0x00#8]) ∧
    decode .kind [0xFD#8] = .ok (.frameUnknown 0xFD#8, []) ∧ decode .command [0x08#8] = .error (.notACommandCode 0x08#8) ∧
    decode .command [] = .error .noByte := ⟨rfl, rfl, rfl, rfl⟩

theorem witness_ResetEventClears : (faulted [.reset, .wait]).hostMoves = .reset :: [.wait] := rfl

theorem witness_ResetAbandonsPending : (pendingCrc [.reset]).busy = true ∧ (pendingCrc [.reset]).faultRecord = none ∧
    (pendingCrc [.reset]).hostMoves = [.reset] := ⟨rfl, rfl, rfl⟩

theorem witness_IssueStep :
    ((input []).withMoves [.writeCmd 7#3]).hostMoves = .writeCmd 7#3 :: [] ∧
    ((input []).withMoves [.writeCmd 7#3]).faultRecord = none ∧ ((input []).withMoves [.writeCmd 7#3]).busy = false ∧
    (pendingCrc [.writeCmd 7#3]).hostMoves = .writeCmd 7#3 :: [] ∧ (pendingCrc [.writeCmd 7#3]).faultRecord = none ∧
    (pendingCrc [.writeCmd 7#3]).busy = true := ⟨rfl, rfl, rfl, rfl, rfl, rfl⟩

/-- The last two at the top of the buffer: INLEN = BUF_BYTES, and the last byte of INBUF. -/
theorem witness_HostWritesTakeEffect : ∀ m ∈ [HostMove.writeSeq 1#64, .writeNext 0#64, .writeKind 0xFF#8, .writeReqid 2#64,
      .writeInject true, .writeInlen 65558, .writeInbuf 65557 [0xAA#8]],
    (State.reset.withMoves [m]).faultRecord = none ∧ (State.reset.withMoves [m]).busy = false ∧
    (State.reset.withMoves [m]).hostMoves = m :: [] ∧ 65558 ≤ (State.reset.withMoves [m]).cfg.bufBytes ∧
    65557 + [0xAA#8].length ≤ (State.reset.withMoves [m]).cfg.bufBytes := by decide

theorem witness_HostViolationsHaveNoMove : (pendingCrc [.writeInlen 0]).faultRecord = none ∧ (pendingCrc [.writeInlen 0]).busy = true ∧
    (pendingCrc [.writeInlen 0]).hostMoves = .writeInlen 0 :: [] ∧
    (pendingCrc [.writeCmd 0#3]).hostMoves = .writeCmd 0#3 :: [] ∧
    (State.reset.withMoves [.writeInlen 65559]).busy = false ∧
    (State.reset.withMoves [.writeInlen 65559]).cfg.bufBytes < 65559 ∧
    (State.reset.withMoves [.writeInlen 65559]).hostMoves = .writeInlen 65559 :: [] := by decide

/-- BUSY while a command is pending; CRC with a response valid; CRC_OK, which CRC32 leaves ⊥; the last byte of OUTBUF; CRC while a
command is pending. -/
theorem witness_HostReadsOrFaults : (pendingCrc [.read .busy]).hostMoves = .read .busy :: [] ∧
    (pendingCrc [.read .busy]).faultRecord = none ∧
    (responded [.read .crc]).respValid = true ∧ responseValue (responded [.read .crc]) .crc = some 0xE8B7BE43 ∧
    (responded [.read .respValid]).hostMoves = .read .respValid :: [] ∧
    responseValue (responded [.read .crcOk]) .crcOk = none ∧
    responseValue (responded [.read (.outbuf 65557)]) (.outbuf 65557) = none ∧
    65557 < (responded [.read (.outbuf 65557)]).cfg.bufBytes ∧
    (pendingCrc [.read .crc]).respValid = false := by decide

theorem witness_FaultedBlockOnlyResets : (faulted []).faultRecord = some (.unwrittenOperand .inlen) ∧
    (∀ rest, (faulted []).hostMoves ≠ .reset :: rest) ∧
    (nextOf (step (faulted [.reset]))).map State.faultRecord = some (some (.unwrittenOperand .inlen)) :=
  ⟨rfl, by simp [faulted, pendingCrc, State.withMoves], by decide +kernel⟩

/-- The grouping of the last two bytes of INBUF. -/
theorem witness_WriteGrouping : State.reset.faultRecord = none ∧ State.reset.busy = false ∧
    65556 + ([0x01#8] ++ [0x02#8] : List Byte).length ≤ State.reset.cfg.bufBytes := by decide

theorem witness_StepRunsPendingCommand : (pendingCrc []).busy = true ∧ (pendingCrc []).faultRecord = none ∧
    (pendingCrc []).req.cmd = some 0#3 ∧ decode .command [(0#3).setWidth 8] = .ok (.crc32, []) ∧ Instr.crc32.wf = true ∧
    (pendingCrc []).hostMoves = [] ∧ (pendingCrc [.wait, .reset]).hostMoves = .wait :: [.reset] :=
  ⟨rfl, rfl, rfl, rfl, rfl, rfl, rfl⟩

/-- Byte 16 written, with 17 bytes and with INLEN ⊥; every kind row with 16 bytes, byte 16 ⊥, and with INLEN ⊥. -/
theorem witness_DecodeRunsFrameKind : (input oddHandshake).req.inlen = some 17 ∧
    Memory.read (input oddHandshake).req.inbuf 16 = some 0xFF#8 ∧
    decode .kind [0xFF#8] = .ok (.frameHandshakeRequest, []) ∧
    Memory.read (idle { Request.blank with inbuf := [(16, 0xFF#8)] }).req.inbuf 16 = some 0xFF#8 ∧
    (∀ i ∈ [Instr.frameData, .frameRequest, .frameFile, .frameSuccess, .frameHandshakeAck, .frameHandshakeRequest,
      .frameUnknown 0x03#8], (encode i).1 = .kind) ∧
    (input zeros16).req.inlen = some 16 ∧ Memory.read (input zeros16).req.inbuf 16 = none ∧ State.reset.req.inlen = none :=
  ⟨rfl, by decide, rfl, rfl, by decide, rfl, rfl, rfl⟩

theorem witness_IdleBlockRests : State.reset.busy = false ∧ State.reset.faultRecord = none ∧ State.reset.hostMoves = [] :=
  ⟨rfl, rfl, rfl⟩

/-- CRC32 issued right after reset: INLEN is ⊥. -/
theorem witness_FaultedCompletionWritesNothing : (State.reset.issued 0#3).busy = true ∧
    (State.reset.issued 0#3).faultRecord = none ∧ (State.reset.issued 0#3).hostMoves = [] ∧
    (State.reset.issued 0#3).req.cmd = some 0#3 ∧
    exec (decodeCommand 0#3) (State.reset.issued 0#3) = .fault (.unwrittenOperand .inlen) := ⟨rfl, rfl, rfl, rfl, rfl⟩

theorem witness_PollingEnds : (pendingCrc [.read .busy, .read .respValid]).busy = true ∧
    (pendingCrc [.read .busy, .read .respValid]).faultRecord = none ∧
    (pendingCrc [.read .busy, .read .respValid]).req.cmd = some 0#3 ∧
    pollsOnly (pendingCrc [.read .busy, .read .respValid]).hostMoves = true := by decide

theorem witness_CommandLineRuns :
    (State.reset.withMoves (CommandLine.moves (.crc32 (some [0x61#8])))).busy = false ∧
    (State.reset.withMoves (CommandLine.moves (.crc32 (some [0x61#8])))).faultRecord = none ∧
    [0x61#8].length ≤ (State.reset.withMoves (CommandLine.moves (.crc32 (some [0x61#8])))).cfg.bufBytes ∧
    (State.reset.withMoves (CommandLine.moves (.crc32 (some [0x61#8])))).hostMoves =
      CommandLine.moves (.crc32 (some [0x61#8])) := by decide

/-- The empty string, and one that fills INBUF. -/
theorem witness_Crc32Semantics : HasInput (input []) [] ∧
    HasInput (input (List.replicate 65558 0x00#8)) (List.replicate 65558 0x00#8) := ⟨hasInput_input _, hasInput_input _⟩

theorem witness_Crc32Faults : State.reset.req.inlen = none ∧
    (idle { inputReq [0x01#8, 0x02#8] with inlen := some 3 }).req.inlen = some 3 ∧
    Memory.read (idle { inputReq [0x01#8, 0x02#8] with inlen := some 3 }).req.inbuf 2 = none ∧
    (∀ b, b < 2 → Memory.read (idle { inputReq [0x01#8, 0x02#8] with inlen := some 3 }).req.inbuf b ≠ none) := by decide

theorem witness_Crc32WorkedExample :
    (input [0x31#8, 0x32#8, 0x33#8, 0x34#8, 0x35#8, 0x36#8, 0x37#8, 0x38#8, 0x39#8]).cfg.crcAlgo = .isoHdlc ∧
    HasInput (input [0x31#8, 0x32#8, 0x33#8, 0x34#8, 0x35#8, 0x36#8, 0x37#8, 0x38#8, 0x39#8])
      [0x31#8, 0x32#8, 0x33#8, 0x34#8, 0x35#8, 0x36#8, 0x37#8, 0x38#8, 0x39#8] := ⟨rfl, hasInput_input _⟩

/-- A control kind; 65536 bytes, and a frame one byte longer than OUTBUF. -/
theorem witness_EncodeDataSemantics_rejects : (controlState 0x01#8 none).req.kind = some 0x01#8 ∧
    (idle { (controlState 0x02#8 none).req with inlen := some 65536 }).req.inlen = some 65536 ∧
    (small (dataState 1#64 0#64 0x00#8 false [0x78#8]) 23).cfg.bufBytes < 23 + 1 ∧
    (small (dataState 1#64 0#64 0x00#8 false [0x78#8]) 23).req.inlen = some 1 ∧
    (small (dataState 1#64 0#64 0x00#8 false [0x78#8]) 23).req.kind = some 0x00#8 := by decide

/-- The empty payload and the longest one, which fills OUTBUF. -/
theorem witness_EncodeDataSemantics_frame :
    (HasInput (dataState 1#64 0#64 0x00#8 false []) [] ∧ 23 + ([] : List Byte).length ≤ State.reset.cfg.bufBytes) ∧
    (HasInput (dataState 1#64 0#64 0x02#8 true (List.replicate 65535 0x00#8)) (List.replicate 65535 0x00#8) ∧
      (List.replicate 65535 0x00#8).length ≤ 65535 ∧
      23 + (List.replicate 65535 0x00#8).length ≤ (dataState 1#64 0#64 0x02#8 true (List.replicate 65535 0x00#8)).cfg.bufBytes ∧
      (dataState 1#64 0#64 0x02#8 true (List.replicate 65535 0x00#8)).req.kind = some 0x02#8 ∧
      (dataState 1#64 0#64 0x02#8 true (List.replicate 65535 0x00#8)).req.seq = some 1#64 ∧
      (dataState 1#64 0#64 0x02#8 true (List.replicate 65535 0x00#8)).req.next = some 0#64 ∧
      (dataState 1#64 0#64 0x02#8 true (List.replicate 65535 0x00#8)).req.inject = some true) := by
  refine ⟨⟨hasInput_data _ _ _ _ _, by decide⟩, hasInput_data _ _ _ _ _, ?_, ?_, rfl, rfl, rfl, rfl⟩
  · exact List.length_replicate.le
  · rw [List.length_replicate]; decide

/-- KIND ⊥; INLEN ⊥; SEQ ⊥; INBUF[0] ⊥. -/
theorem witness_EncodeDataSemantics_faults : State.reset.req.kind = none ∧ (controlState 0x00#8 none).req.inlen = none ∧
    (idle { (dataState 1#64 0#64 0x00#8 false [0x68#8]).req with seq := none }).req.seq = none ∧
    (∃ a, a < 1 ∧ Memory.read (idle { (dataState 1#64 0#64 0x00#8 false []).req with inlen := some 1 }).req.inbuf a = none) :=
  ⟨rfl, rfl, rfl, 0, by decide, rfl⟩

theorem witness_InjectionBumpsLastByte : ∃ s clean frame plain, s.req.inject = some true ∧
    clean = { s with req := { s.req with inject := some false } } ∧ EncodesData s frame ∧ EncodesData clean plain :=
  ⟨dataState 1#64 0#64 0x00#8 true [0x78#8], dataState 1#64 0#64 0x00#8 false [0x78#8], xInjected, xClean, rfl, rfl,
    encodes_xInjected, encodes_xClean⟩

theorem witness_EncodedDataFrameLayout : (dataState 1#64 2#64 0x02#8 false [0x68#8]).req.kind = some 0x02#8 ∧
    HasInput (dataState 1#64 2#64 0x02#8 false [0x68#8]) [0x68#8] ∧ [0x68#8].length ≤ 65535 ∧
    23 + [0x68#8].length ≤ (dataState 1#64 2#64 0x02#8 false [0x68#8]).cfg.bufBytes ∧
    (dataState 1#64 2#64 0x02#8 false [0x68#8]).req.seq = some 1#64 ∧
    (dataState 1#64 2#64 0x02#8 false [0x68#8]).req.next = some 2#64 ∧
    (dataState 1#64 2#64 0x02#8 false [0x68#8]).req.inject = some false :=
  ⟨rfl, hasInput_data _ _ _ _ _, by decide, by decide, rfl, rfl, rfl⟩

theorem witness_EncodeControlSemantics : (controlState 0xC8#8 (some 0#64)).req.kind = some 0xC8#8 ∧
    (controlState 0xC8#8 (some 0#64)).req.reqid = some 0#64 ∧ (controlState 0xFE#8 none).req.kind = some 0xFE#8 ∧
    (controlState 0xFD#8 none).req.kind = some 0xFD#8 ∧ State.reset.req.kind = none ∧
    (controlState 0x01#8 none).req.kind = some 0x01#8 ∧ (controlState 0x01#8 none).req.reqid = none :=
  ⟨rfl, rfl, rfl, rfl, rfl, rfl, rfl⟩

/-- The shortest payload and the longest. -/
theorem witness_DecodeDataFileFields : ∀ p : List Byte, p = [] ∨ p = List.replicate 65535 0x00#8 → p.length ≤ 65535 ∧
    HasInput (input (bytesBE 8 (1#64).toNat ++ bytesBE 8 (0#64).toNat ++ [0x02#8] ++ bytesBE 2 p.length ++ p ++
        bytesBE 4 (0#32).toNat))
      (bytesBE 8 (1#64).toNat ++ bytesBE 8 (0#64).toNat ++ [0x02#8] ++ bytesBE 2 p.length ++ p ++ bytesBE 4 (0#32).toNat) := by
  rintro p (rfl | rfl)
  · exact ⟨by simp, hasInput_input _⟩
  · exact ⟨List.length_replicate.le, hasInput_input _⟩

/-- EXACT with 25 bytes; AT_LEAST with 26 bytes and REQUIRE_ZERO. -/
theorem witness_DecodeControlIdFields :
    ((input request2).req.inlen = some 25 ∧ (input request2).cfg.lenPolicy = .exact ∧ (input request2).cfg.zeroPolicy = .ignore ∧
      Memory.read (input request2).req.inbuf 16 = some 0x01#8 ∧
      BufferHolds (input request2).req.inbuf 17 (bytesBE 8 (2#64).toNat)) ∧
    ((under (input (request2 ++ [0x00#8])) .atLeast .requireZero).req.inlen = some 26 ∧
      BufferHolds (under (input (request2 ++ [0x00#8])) .atLeast .requireZero).req.inbuf 0 (List.replicate 16 0#8) ∧
      Memory.read (under (input (request2 ++ [0x00#8])) .atLeast .requireZero).req.inbuf 16 = some 0x01#8 ∧
      BufferHolds (under (input (request2 ++ [0x00#8])) .atLeast .requireZero).req.inbuf 17 (bytesBE 8 (2#64).toNat)) := by
  unfold BufferHolds
  decide +kernel

/-- EXACT with 17 bytes; AT_LEAST with 18 bytes and REQUIRE_ZERO. -/
theorem witness_DecodeHandshakeFields :
    ((input oddHandshake).req.inlen = some 17 ∧ (input oddHandshake).cfg.lenPolicy = .exact ∧
      (input oddHandshake).cfg.zeroPolicy = .ignore ∧ Memory.read (input oddHandshake).req.inbuf 16 = some 0xFF#8) ∧
    ((under (input (zeros16 ++ [0xFE#8, 0x00#8])) .atLeast .requireZero).req.inlen = some 18 ∧
      BufferHolds (under (input (zeros16 ++ [0xFE#8, 0x00#8])) .atLeast .requireZero).req.inbuf 0 (List.replicate 16 0#8) ∧
      Memory.read (under (input (zeros16 ++ [0xFE#8, 0x00#8])) .atLeast .requireZero).req.inbuf 16 = some 0xFE#8) := by
  unfold BufferHolds
  decide +kernel

theorem witness_UnknownKindDropped : (Instr.frameUnknown 0x03#8).wf = true ∧ (input (zeros16 ++ [0x03#8])).req.inlen = some 17 ∧
    Memory.read (input (zeros16 ++ [0x03#8])).req.inbuf 16 = some 0x03#8 := by decide

/-- 16 bytes; 22 bytes of kind FILE, and a payloadLength one too large; 24 bytes of REQUEST under AT_LEAST; a zero field of 1. -/
theorem witness_DecodeRejectsInOrder : (input zeros16).req.inlen = some 16 ∧
    ((input (zeros16 ++ 0x02#8 :: List.replicate 5 0x00#8)).req.inlen = some 22 ∧
      Memory.read (input (zeros16 ++ 0x02#8 :: List.replicate 5 0x00#8)).req.inbuf 16 = some 0x02#8) ∧
    ((input (hi1.set 18 0x02#8)).req.inlen = some 24 ∧ BufferHolds (input (hi1.set 18 0x02#8)).req.inbuf 17 (bytesBE 2 2) ∧
      19 + 2 + 4 ≠ 24 ∧ Memory.read (input (hi1.set 18 0x02#8)).req.inbuf 16 = some 0x00#8) ∧
    ((under (input (request2.take 24)) .atLeast .ignore).req.inlen = some 24 ∧ 24 < 25 ∧
      Memory.read (under (input (request2.take 24)) .atLeast .ignore).req.inbuf 16 = some 0x01#8) ∧
    ((under (input oddHandshake) .exact .requireZero).req.inlen = some 17 ∧
      BufferHolds (under (input oddHandshake) .exact .requireZero).req.inbuf 0 (oddHandshake.take 16) ∧
      (oddHandshake.take 16).length = 16 ∧ oddHandshake.take 16 ≠ List.replicate 16 0#8) := by
  unfold BufferHolds
  decide +kernel

/-- INLEN ⊥; byte 16 ⊥; the last byte of a data frame ⊥; byte 18 of a datagram of 23 bytes ⊥; byte 24 of a REQUEST ⊥; byte 15 of a HANDSHAKE_ACK ⊥. -/
theorem witness_DecodeFaults : State.reset.req.inlen = none ∧
    Memory.read (idle { Request.blank with inlen := some 17 }).req.inbuf 16 = none ∧
    (BufferHolds (Memory.ofBytes 0 (hi1.take 23)) 17 (bytesBE 2 (24 - 23)) ∧ Memory.read (Memory.ofBytes 0 (hi1.take 23)) 23 = none ∧
      Memory.read (Memory.ofBytes 0 (hi1.take 23)) 16 = some 0x00#8) ∧
    ((idle { inputReq (hi1.take 18) with inlen := some 23 }).req.inlen = some 23 ∧
      Memory.read (idle { inputReq (hi1.take 18) with inlen := some 23 }).req.inbuf 16 = some 0x00#8 ∧
      Memory.read (idle { inputReq (hi1.take 18) with inlen := some 23 }).req.inbuf 18 = none) ∧
    (Memory.read (Memory.ofBytes 0 (request2.take 24)) 24 = none ∧
      Memory.read (Memory.ofBytes 0 (request2.take 24)) 16 = some 0x01#8) ∧
    (Memory.read [(16, 0xFE#8)] 15 = none ∧ Memory.read [(16, 0xFE#8)] 16 = some 0xFE#8 ∧
      (under (idle { Request.blank with inlen := some 17, inbuf := [(16, 0xFE#8)] }) .exact .requireZero).cfg.zeroPolicy =
        .requireZero) := by
  unfold BufferHolds
  decide +kernel

/-- A datagram whose bytes are all written has every byte written that DECODE reads. -/
theorem input_reads (bs : List Byte) (a : Nat) (h : DecodeReads (input bs).cfg (input bs).req.inbuf bs.length a) :
    Memory.read (input bs).req.inbuf a ≠ none := by
  have := decodeReads_lt h
  simp [input, idle, inputReq, this]

/-- V60: only byte 16 is written. -/
def handshakeAlone : State := idle { Request.blank with inlen := some 17, inbuf := [(16, 0xFF#8)] }

/-- Under the default policies DECODE reads no byte but 16 of a handshake frame of 17 bytes (R123). -/
theorem handshakeAlone_reads {a : Nat} (h : DecodeReads handshakeAlone.cfg handshakeAlone.req.inbuf 17 a) : a = 16 := by
  rcases h with ⟨-, rfl | ⟨k, hk, ⟨-, h1, -⟩ | ⟨needed, hn, -, ⟨hz, -⟩ | ⟨h1, h2, -⟩⟩⟩⟩
  · rfl
  · omega
  · exact absurd hz (by decide)
  · obtain rfl : 0xFF#8 = k := Option.some.inj hk
    rcases hn with ⟨h, -⟩ | ⟨-, rfl⟩
    · exact absurd h (by decide)
    · omega

/-- No byte; a data frame; V60 with bytes 0 to 15 ⊥, beside a state where they are not. -/
theorem witness_DecodeTotal :
    ((input []).req.inlen = some 0 ∧ 0 ≤ (input []).cfg.bufBytes ∧
      ∀ a, DecodeReads (input []).cfg (input []).req.inbuf 0 a → Memory.read (input []).req.inbuf a ≠ none) ∧
    ((input hi1).req.inlen = some 24 ∧ 24 ≤ (input hi1).cfg.bufBytes ∧
      ∀ a, DecodeReads (input hi1).cfg (input hi1).req.inbuf 24 a → Memory.read (input hi1).req.inbuf a ≠ none) ∧
    (handshakeAlone.req.inlen = some 17 ∧ 17 ≤ handshakeAlone.cfg.bufBytes ∧
      (∀ a, DecodeReads handshakeAlone.cfg handshakeAlone.req.inbuf 17 a → Memory.read handshakeAlone.req.inbuf a ≠ none) ∧
      (input oddHandshake).cfg = handshakeAlone.cfg ∧ (input oddHandshake).req.inlen = some 17 ∧
      ∀ a, DecodeReads handshakeAlone.cfg handshakeAlone.req.inbuf 17 a →
        Memory.read (input oddHandshake).req.inbuf a = Memory.read handshakeAlone.req.inbuf a) := by
  refine ⟨⟨rfl, by decide, input_reads []⟩, ⟨rfl, by decide, input_reads hi1⟩,
    rfl, by decide, fun a h => ?_, rfl, rfl, fun a h => ?_⟩
  · rw [handshakeAlone_reads h]; decide
  · rw [handshakeAlone_reads h]; decide

/-- 16 bytes; byte 16 ⊥; an unknown kind; a control kind; 22 bytes of kind FILE; the last byte ⊥; byte 18 ⊥. -/
theorem witness_ValidateSemantics : State.reset.req.inlen = none ∧ (input zeros16).req.inlen = some 16 ∧
    Memory.read (idle { Request.blank with inlen := some 17 }).req.inbuf 16 = none ∧
    (Memory.read (input (zeros16 ++ [0xC9#8])).req.inbuf 16 = some 0xC9#8 ∧ 0xC9#8 ∉ knownKinds) ∧
    Memory.read (input oddHandshake).req.inbuf 16 = some 0xFF#8 ∧
    (input (zeros16 ++ 0x02#8 :: List.replicate 5 0x00#8)).req.inlen = some 22 ∧
    (BufferHolds (Memory.ofBytes 0 (hi1.take 23)) 17 (bytesBE 2 (24 - 23)) ∧ Memory.read (Memory.ofBytes 0 (hi1.take 23)) 23 = none) ∧
    Memory.read (Memory.ofBytes 0 (hi1.take 18)) 18 = none := by
  unfold BufferHolds
  decide +kernel

theorem witness_ValidateSemantics_ok : HasInput (input (xBody ++ [0x95#8, 0x86#8, 0x8A#8, 0x48#8])) (xBody ++ [0x95#8, 0x86#8, 0x8A#8, 0x48#8]) ∧
    [0x95#8, 0x86#8, 0x8A#8, 0x48#8].length = 4 ∧ xBody[16]? = some 0x00#8 ∧ xBody.length = 19 + 1 ∧
    xBody[17]? = (bytesBE 2 1)[0]? ∧ xBody[18]? = (bytesBE 2 1)[1]? :=
  ⟨hasInput_input _, rfl, rfl, rfl, by decide, by decide⟩

/-- A reserved code answers a next state whose STATUS is not OK; CRC32 of nothing answers one whose STATUS is OK. -/
theorem witness_NextStates : (∃ t, exec .rsv5 State.reset = .next t ∧ t.resp.status ≠ some 0#3) ∧
    (∃ t, exec .crc32 (input []) = .next t ∧ t.resp.status = some 0#3) :=
  ⟨⟨_, rfl, by decide⟩, ⟨_, rfl, rfl⟩⟩

/-- ENCODE_DATA and ENCODE_CONTROL answer with an OUTLEN, as CompletionFrame supposes. -/
theorem witness_CompletionFrame : (∃ t, exec .encodeData (dataState 1#64 0#64 0x00#8 false [0x78#8]) = .next t ∧ t.resp.outlen = some 24) ∧
    (∃ t, exec .encodeControl (controlState 0xFE#8 none) = .next t ∧ t.resp.outlen = some 17) :=
  ⟨⟨_, encodes_xClean.choose_spec.1, encodes_xClean.choose_spec.2.2.1⟩, ⟨_, rfl, rfl⟩⟩

theorem witness_FaultsOnlyOnUnwritten : exec .crc32 State.reset = .fault (.unwrittenOperand .inlen) := rfl

/-- Two states that agree on what a command reads and differ elsewhere: in REQID and in INBUF above INLEN; for DECODE in bytes 0
to 15 of a handshake frame (V60); for VALIDATE in bytes 0 to 15 of a control frame. -/
theorem witness_ResponseDependsOnListedOperands :
    (input hi1).cfg = (idle { inputReq hi1 with reqid := some 7#64, inbuf := Memory.ofBytes 0 (hi1 ++ [0xAA#8]) }).cfg ∧
    (∀ a, a < 24 → Memory.read (input hi1).req.inbuf a =
      Memory.read (idle { inputReq hi1 with reqid := some 7#64, inbuf := Memory.ofBytes 0 (hi1 ++ [0xAA#8]) }).req.inbuf a) ∧
    (handshakeAlone.cfg = (input oddHandshake).cfg ∧ handshakeAlone.req.inlen = (input oddHandshake).req.inlen ∧
      ∀ a, DecodeReads handshakeAlone.cfg handshakeAlone.req.inbuf 17 a →
        Memory.read handshakeAlone.req.inbuf a = Memory.read (input oddHandshake).req.inbuf a) ∧
    (∀ a, ValidateReads handshakeAlone.req.inbuf 17 a →
      Memory.read handshakeAlone.req.inbuf a = Memory.read (input oddHandshake).req.inbuf a) ∧
    (controlState 0xFE#8 none).req.kind = (controlState 0xFE#8 (some 3#64)).req.kind ∧
    (controlState 0x03#8 none).req.kind = (dataState 0#64 0#64 0x03#8 true []).req.kind := by
  refine ⟨rfl, by decide +kernel, ⟨rfl, rfl, fun a h => ?_⟩, ?_, rfl, rfl⟩
  · rw [handshakeAlone_reads h]; decide
  · rintro a ⟨-, rfl | ⟨k, -, -, h, -⟩⟩
    · decide
    · omega

/-- The 24 bytes of a frame in OUTBUF; byte 24, the first that is ⊥; a read while a command is pending. -/
theorem witness_ReadGrouping :
    (let s := ((input []).completed (frameOut hi1 24)).withMoves [.readOutbuf 0 24]
     s.hostMoves = .readOutbuf 0 24 :: [] ∧ s.faultRecord = none ∧ 0 + 24 ≤ s.cfg.bufBytes ∧ s.respValid = true ∧
       hi1.length = 24 ∧ BufferHolds s.resp.outbuf 0 hi1 ∧ Memory.read s.resp.outbuf (0 + 24) = none ∧
       ∀ j, j < 24 → Memory.read s.resp.outbuf (0 + j) ≠ none) ∧
    (pendingCrc [.readOutbuf 65557 1]).respValid = false ∧ 65557 + 1 ≤ (pendingCrc [.readOutbuf 65557 1]).cfg.bufBytes ∧
    (pendingCrc [.readOutbuf 65557 1]).hostMoves = .readOutbuf 65557 1 :: [] := by
  unfold BufferHolds
  decide +kernel

theorem witness_ReissueRepeatsResponse : (pendingCrc []).busy = true ∧ (pendingCrc []).faultRecord = none ∧
    (pendingCrc []).hostMoves = [] ∧ (pendingCrc []).req.cmd = some 0#3 ∧ ∃ t, step (pendingCrc []) = .next t :=
  ⟨rfl, rfl, rfl, rfl, _, rfl⟩

theorem witness_DataRoundTrip : ∃ e s frame, EncodesData e frame ∧ HasInput s frame ∧ e.req.inject = some true :=
  ⟨_, input xInjected, xInjected, encodes_xInjected, hasInput_input _, rfl⟩

theorem witness_ControlRoundTrip : ∃ e s frame, EncodesControl e frame ∧ HasInput s frame :=
  ⟨_, under (input request2) .atLeast .requireZero, request2, encodes_request2, hasInput_input request2⟩

/-- A data frame whose checksum is the CRC, one whose checksum is neither the CRC nor the incremented CRC, and a control frame. -/
theorem witness_DecodeInvertsEncode : ∀ frame ∈ [xClean, xInjected, xClean.set 20 0x00#8, request2],
    HasInput (input frame) frame ∧ frame.length ≤ (input frame).cfg.bufBytes ∧ (input frame).cfg.lenPolicy = .exact ∧
    (input frame).cfg.zeroPolicy = .ignore ∧ (respOf (exec .decode (input frame))).any (fun r => r.status == some 0#3) = true := by
  intro frame h
  refine ⟨hasInput_input _, ?_, rfl, rfl, ?_⟩ <;> revert frame <;> decide +kernel

theorem witness_CleanFramesValidate : ∃ e s frame, EncodesData e frame ∧ e.req.inject = some false ∧ s.cfg.crcAlgo = e.cfg.crcAlgo ∧
    HasInput s frame := ⟨_, input xClean, xClean, encodes_xClean, rfl, rfl, hasInput_input _⟩

theorem witness_InjectedFramesFailValidation : ∃ e s frame, EncodesData e frame ∧ e.req.inject = some true ∧
    s.cfg.crcAlgo = e.cfg.crcAlgo ∧ HasInput s frame :=
  ⟨_, input xInjected, xInjected, encodes_xInjected, rfl, rfl, hasInput_input _⟩

/-- 16 bytes, a data frame, an unknown kind and a control kind. -/
theorem witness_ValidateAgreesWithDecode : HasInput (input zeros16) zeros16 ∧ zeros16.length < 17 ∧ HasInput (input hi1) hi1 ∧
    hi1[16]? = some 0x00#8 ∧ (zeros16 ++ [0x03#8])[16]? = some 0x03#8 ∧ 0x03#8 ∉ knownKinds ∧ request2[16]? = some 0x01#8 :=
  ⟨hasInput_input _, by decide, hasInput_input _, rfl, rfl, by decide, rfl⟩

/-- One changed byte in each row of the table, at the ends of the rows' ranges. -/
theorem witness_SingleByteChange :
    ∀ c ∈ [(0, 0x80#8), (15, 0x03#8), (16, 0x02#8), (16, 0x01#8), (16, 0x03#8), (17, 0x01#8), (18, 0x00#8), (19, 0x69#8),
      (20, 0x00#8), (23, 0x48#8)],
    EncodesData (dataState 1#64 0#64 0x00#8 false [0x78#8]) xClean ∧ c.1 < xClean.length ∧ xClean[c.1]? ≠ some c.2 ∧
    HasInput (input (xClean.set c.1 c.2)) (xClean.set c.1 c.2) := by
  intro c h
  refine ⟨encodes_xClean, ?_, ?_, hasInput_input _⟩ <;> revert c <;> decide

theorem witness_StepKeepsInvariant : (pendingCrc []).inv = true ∧ ∃ t, step (pendingCrc []) = .next t := ⟨by decide +kernel, _, rfl⟩

theorem witness_ResetMeetsInvariant : State.reset.cfg.wf = true := by decide

end Sys2Proof.Tests
end

section
/-! The invariant (O50): what each part of it says as a proposition, the response of each row of R55's table, and one lemma
per kind of step: a request write, a completion, an issue, a reset. -/

namespace Sys2Proof.Machine

/-- The host's moves still to come are no part of the invariant. -/
@[simp] theorem State.inv_withMoves (s : State) (ms : List HostMove) : (s.withMoves ms).inv = s.inv := rfl

theorem requestOk_iff {c : Config} {r : Request} :
    requestOk c r = true ↔
      Memory.wf r.inbuf = true ∧ Memory.below r.inbuf c.bufBytes = true ∧ ∀ n, r.inlen = some n → n ≤ c.bufBytes := by
  simp [requestOk, Option.all_eq_true, and_assoc]

theorem protocolOk_iff {s : State} :
    protocolOk s = true ↔
      (s.busy = true → s.respValid = false ∧ ∃ c, s.req.cmd = some c) ∧
      (s.respValid = false → s.resp = Response.blank) ∧
      (s.respValid = true → ∃ c, s.req.cmd = some c ∧ responseOk c s.resp = true) := by
  cases hb : s.busy <;> cases hv : s.respValid <;>
    simp [protocolOk, hb, hv, Option.isSome_iff_exists, Option.any_eq_true]

/-- OUTBUF is canonical and OUTLEN within it (R45, R46). -/
def Response.Fits (c : Config) (p : Response) : Prop :=
  Memory.wf p.outbuf = true ∧ ∀ n, p.outlen = some n → n ≤ c.bufBytes

theorem Response.fits_blank (c : Config) : Response.blank.Fits c := by simp [Response.Fits, Response.blank]

theorem Response.fits_finish (c : Config) (st : BitVec 3) : (Response.finish st).Fits c := by simp [Response.Fits]

theorem State.inv_iff {s : State} :
    s.inv = true ↔ s.cfg.wf = true ∧ requestOk s.cfg s.req = true ∧ s.resp.Fits s.cfg ∧ protocolOk s = true := by
  simp [State.inv, Response.Fits, Option.all_eq_true, and_assoc]

/-! ### The rows of R55's table -/

theorem responseOk_iff {c : Code} {p : Response} :
    responseOk c p = true ↔
      definedRegs p = expectedRegs c p ∧ outbufExact p ∧ ∃ st, p.status = some st ∧ st ∈ statusesOf c := by
  simp [responseOk, Option.any_eq_true, and_assoc]

/-- A frame in OUTBUF with its length in OUTLEN fills exactly [0 .. OUTLEN) (R46). -/
theorem outbuf_addresses_of_frame (frame : List Byte) :
    (Memory.ofBytes 0 frame).map Prod.fst = List.range frame.length := by
  rw [Memory.ofBytes_addresses, List.range_eq_range']

/-- R190: a completion that is not OK writes STATUS alone. -/
theorem responseOk_finish {c : Code} {st : BitVec 3} (hst : st ≠ statusOk) (hc : st ∈ statusesOf c) :
    responseOk c (Response.finish st) = true := by
  refine responseOk_iff.2 ⟨?_, rfl, st, rfl, hc⟩
  simp [definedRegs, definedName, expectedRegs, hst]

theorem responseOk_crc32 (v : Crc) : responseOk 0#3 { Response.finish statusOk with crc := some v } = true :=
  responseOk_iff.2 ⟨rfl, rfl, statusOk, rfl, by decide⟩

theorem responseOk_validate (v : Crc) (ok : Bool) :
    responseOk 4#3 { Response.finish statusOk with crc := some v, crcOk := some ok } = true :=
  responseOk_iff.2 ⟨rfl, rfl, statusOk, rfl, by decide⟩

theorem responseOk_encodeData (frame : List Byte) : responseOk 1#3 (frameOut frame frame.length) = true :=
  responseOk_iff.2 ⟨rfl, outbuf_addresses_of_frame frame, statusOk, rfl, by decide⟩

theorem responseOk_encodeControl (frame : List Byte) : responseOk 2#3 (frameOut frame frame.length) = true :=
  responseOk_iff.2 ⟨rfl, outbuf_addresses_of_frame frame, statusOk, rfl, by decide⟩

/-- DECODE with STATUS = OK: the registers of its row are those that D_KIND's class lists. -/
theorem responseOk_decode {p : Response} {k : Byte} (hst : p.status = some statusOk) (hk : p.dKind = some k)
    (hregs : definedRegs p = decodedRegs k) (hout : outbufExact p) : responseOk 3#3 p = true := by
  refine responseOk_iff.2 ⟨?_, hout, statusOk, hst, by decide⟩
  simp [expectedRegs, hst, hk, hregs]

theorem responseOk_decodeDataFile {k : Byte} (hk : kindClass k = .dataFile) (bs : List Byte) (seq next : Id)
    (len : BitVec 16) (checksum : Crc) :
    responseOk 3#3 { frameOut bs bs.length with
      dKind := some k, dSeq := some seq, dNext := some next, dLen := some len, dChecksum := some checksum } = true :=
  responseOk_decode rfl rfl (by rw [decodedRegs, hk]; rfl) (outbuf_addresses_of_frame bs)

theorem responseOk_decodeControlId {k : Byte} (hk : kindClass k = .controlId) (id : Id) :
    responseOk 3#3 (controlDecoded k (some id)) = true :=
  responseOk_decode rfl rfl (by rw [decodedRegs, hk]; rfl) rfl

theorem responseOk_decodeHandshake {k : Byte} (hk : kindClass k = .handshake) :
    responseOk 3#3 (controlDecoded k none) = true :=
  responseOk_decode rfl rfl (by rw [decodedRegs, hk]; rfl) rfl

/-- R55, R181: every completion leaves the registers that the row of its command lists. -/
theorem responseOk_of_instrResponse {i : Instr} {c : Config} {r : Request} {p : Response}
    (h : instrResponse i c r = .ok p) : responseOk (commandCode i) p = true := by
  rcases instrResponse_ok h with ⟨st, hst, hc, rfl⟩ | ⟨rfl, v, rfl⟩ | ⟨rfl, frame, n, -, -, -, rfl⟩ | ⟨rfl, frame, -, rfl⟩ |
    ⟨hi, k, seq, next, ck, bs, hk, -, rfl⟩ | ⟨hi, k, id, hk, rfl⟩ | ⟨hi, k, hk, rfl⟩ | ⟨rfl, v, ok, rfl⟩
  · exact responseOk_finish hst hc
  · exact responseOk_crc32 v
  · exact responseOk_encodeData frame
  · exact responseOk_encodeControl frame
  · exact hi ▸ responseOk_decodeDataFile hk bs seq next _ ck
  · exact hi ▸ responseOk_decodeControlId hk id
  · exact hi ▸ responseOk_decodeHandshake hk
  · exact responseOk_validate v ok

/-! ### OUTLEN within OUTBUF -/

theorem Response.fits_frameOut {c : Config} {frame : List Byte} (h : frame.length ≤ c.bufBytes) :
    (frameOut frame frame.length).Fits c := by
  simp [Response.Fits, frameOut, Memory.wf_ofBytes, h]

/-- A completion keeps OUTLEN within OUTBUF (R45): a data frame by ENCODE_DATA's own check, a control frame by R8's least
BUF_BYTES, and a decoded payload because it is shorter than the datagram it came in. -/
theorem fits_of_instrResponse {i : Instr} {c : Config} {r : Request} {p : Response} (hc : c.wf = true)
    (hr : requestOk c r = true) (h : instrResponse i c r = .ok p) : p.Fits c := by
  have hbuf : 25 ≤ c.bufBytes := by simpa [Config.wf] using hc
  obtain ⟨-, -, hin⟩ := requestOk_iff.1 hr
  rcases instrResponse_ok h with ⟨st, -, -, rfl⟩ | ⟨-, v, rfl⟩ | ⟨-, frame, n, -, hl, hn, rfl⟩ | ⟨-, frame, hl, rfl⟩ |
    ⟨-, k, seq, next, ck, bs, -, hn, rfl⟩ | ⟨-, k, id, -, rfl⟩ | ⟨-, k, -, rfl⟩ | ⟨-, v, ok, rfl⟩
  · exact Response.fits_finish c st
  · exact Response.fits_finish c statusOk
  · exact Response.fits_frameOut (by omega)
  · exact Response.fits_frameOut (by omega)
  · exact Response.fits_frameOut (frame := bs) (by have := hin _ hn; omega)
  · exact Response.fits_frameOut (frame := []) (Nat.zero_le _)
  · exact Response.fits_frameOut (frame := []) (Nat.zero_le _)
  · exact Response.fits_finish c statusOk

/-! ### The kinds of step -/

/-- R54: the completion of the command in CMD keeps the invariant. -/
theorem State.inv_completed {s : State} {c : Code} {p : Response} (hs : s.inv = true) (hc : s.req.cmd = some c)
    (h : instrResponse (decodeCommand c) s.cfg s.req = .ok p) : (s.completed p).inv = true := by
  obtain ⟨hcfg, hreq, -, -⟩ := State.inv_iff.1 hs
  have hp : responseOk c p = true := commandCode_decodeCommand c ▸ responseOk_of_instrResponse h
  refine State.inv_iff.2 ⟨hcfg, hreq, fits_of_instrResponse hcfg hreq h, protocolOk_iff.2 ?_⟩
  simp [hc, hp]

/-- R53: the issue of a command keeps the invariant. -/
theorem State.inv_issued {s : State} (c : Code) (hs : s.inv = true) : (s.issued c).inv = true := by
  obtain ⟨hcfg, hreq, -, -⟩ := State.inv_iff.1 hs
  refine State.inv_iff.2 ⟨hcfg, hreq, Response.fits_blank s.cfg, protocolOk_iff.2 ?_⟩
  simp

/-- R210: the state a reset leaves meets the invariant under any legal configuration. -/
theorem State.inv_resetEvent {s : State} (hcfg : s.cfg.wf = true) : s.resetEvent.inv = true := by
  refine State.inv_iff.2 ⟨hcfg, rfl, Response.fits_blank s.cfg, protocolOk_iff.2 ?_⟩
  simp

/-- A host write that keeps CMD and leaves the request registers in range keeps the invariant. -/
theorem State.inv_withReq {s : State} {r : Request} (hs : s.inv = true) (hcmd : r.cmd = s.req.cmd)
    (hr : requestOk s.cfg r = true) : (s.withReq r).inv = true := by
  obtain ⟨hcfg, -, hfits, hprot⟩ := State.inv_iff.1 hs
  refine State.inv_iff.2 ⟨hcfg, hr, hfits, protocolOk_iff.2 ?_⟩
  simpa [hcmd] using protocolOk_iff.1 hprot

/-- R54, R199: the block's own step keeps the invariant. -/
theorem blockStep_keeps_inv {s t : State} (hs : s.inv = true) (h : blockStep s = .next t) : t.inv = true := by
  rcases blockStep_cases h with ⟨-, rfl⟩ | ⟨c, p, -, hc, hp, rfl⟩
  · exact hs
  · exact State.inv_completed hs hc hp

/-- R38, R39, R53, R67, R210: a move of the host keeps the invariant. -/
theorem hostMove_keeps_inv {m : HostMove} {s t : State} (hs : s.inv = true) (h : hostMove m s = .next t) :
    t.inv = true := by
  obtain ⟨hcfg, hreq, -, -⟩ := State.inv_iff.1 hs
  obtain ⟨hwf, hbelow, hinlen⟩ := requestOk_iff.1 hreq
  rcases hostMove_cases h with ⟨v, -, -, rfl⟩ | ⟨v, -, -, rfl⟩ | ⟨v, -, -, rfl⟩ | ⟨v, -, -, rfl⟩ | ⟨v, -, -, rfl⟩ |
    ⟨n, -, -, hn, rfl⟩ | ⟨a, bs, -, -, ha, rfl⟩ | ⟨c, -, -, rfl⟩ | ⟨r, v, -, -, rfl⟩ | ⟨a, n, bs, -, -, rfl⟩ |
    ⟨-, rfl⟩ | ⟨-, rfl⟩
  · exact State.inv_withReq hs rfl hreq
  · exact State.inv_withReq hs rfl hreq
  · exact State.inv_withReq hs rfl hreq
  · exact State.inv_withReq hs rfl hreq
  · exact State.inv_withReq hs rfl hreq
  · exact State.inv_withReq hs rfl (requestOk_iff.2 ⟨hwf, hbelow, by simpa using hn⟩)
  · exact State.inv_withReq hs rfl (requestOk_iff.2
      ⟨Memory.wf_writeBytes bs a hwf, Memory.below_writeBytes bs ha hbelow, hinlen⟩)
  · exact State.inv_issued c hs
  · exact hs
  · exact hs
  · exact State.inv_resetEvent hcfg
  · exact hs

/-- Settles O50: a step is the block's own step, a reset, or another move of the host, and each keeps the invariant. -/
theorem stepKeepsInvariant : Obligations.StepKeepsInvariant := by
  unfold Obligations.StepKeepsInvariant
  intro s t hs h
  rcases step_cases h with ⟨-, -, hb⟩ | ⟨rest, -, -, hb⟩ | ⟨rest, -, rfl⟩ | ⟨m, rest, -, -, -, -, hm⟩
  · exact blockStep_keeps_inv hs hb
  · exact blockStep_keeps_inv ((s.inv_withMoves rest).trans hs) hb
  · exact State.inv_resetEvent (State.inv_iff.1 hs).1
  · exact hostMove_keeps_inv ((s.inv_withMoves rest).trans hs) hm

end Sys2Proof.Machine
end

section
/-! DECODE of a control frame that both policies accept (O28, O29): each check of R121 answered once, then the arm of its class. -/

namespace Sys2Proof.Machine

/-- Check (5) of DECODE (R121), by the policy of R11. -/
theorem controlLengthOk_iff {c : Config} {n needed : Nat} :
    controlLengthOk c n needed = true ↔ (c.lenPolicy = .exact ∧ n = needed) ∨ (c.lenPolicy = .atLeast ∧ needed ≤ n) := by
  unfold controlLengthOk
  cases c.lenPolicy <;> simp

/-- Check (6) of DECODE (R121) under IGNORE, or with bytes 0 to 15 zero (R12). -/
theorem zeroFieldsOk_of_accepted {c : Config} {r : Request}
    (h : c.zeroPolicy = .ignore ∨ BufferHolds r.inbuf 0 (List.replicate 16 0#8)) : zeroFieldsOk c r = .ok true := by
  unfold zeroFieldsOk
  cases hz : c.zeroPolicy with
  | ignore => rfl
  | requireZero =>
    have hzeros : BufferHolds r.inbuf 0 (List.replicate 8 0#8 ++ List.replicate 8 0#8) := by simpa [hz] using h
    obtain ⟨hlow, hhigh⟩ := bufferHolds_append.1 hzeros
    have h0 : memRead r 0 8 = .ok 0 := memRead_of_holds hlow
    have h1 : memRead r 8 8 = .ok 0 := memRead_of_holds hhigh
    simp [h0, h1]

/-- A field that holds an id's bytes reads as the id. -/
theorem memRead_of_holds_id {r : Request} {a : Nat} {id : Id} (h : BufferHolds r.inbuf a (bytesBE 8 id.toNat)) :
    memRead r a 8 = .ok id.toNat := by
  simpa [beNat_bytesBE_id] using memRead_of_holds h

/-- The two kinds of one class name their own rows of the kind map. -/
theorem decode_or_row_of_kind {i : Instr} {k k₁ k₂ : Byte}
    (h : i = .decode ∨ (k = k₁ ∧ i = decodeKind k₁) ∨ (k = k₂ ∧ i = decodeKind k₂)) : i = .decode ∨ i = decodeKind k := by
  rcases h with hdec | ⟨rfl, hrow⟩ | ⟨rfl, hrow⟩
  · exact .inl hdec
  · exact .inr hrow
  · exact .inr hrow

/-- DECODE of a datagram of at least 17 bytes, and the row of its kind, run the arm of its kind (R121, log entry 11). -/
theorem exec_of_kind {s : State} {i : Instr} {k : Byte} {n : Nat} (hi : i = .decode ∨ i = decodeKind k)
    (hn : s.req.inlen = some n) (h17 : 17 ≤ n) (hk : Memory.read s.req.inbuf 16 = some k) :
    exec i s = completeWith s (decodeArm s.cfg s.req n k) := by
  have hresp : instrResponse i s.cfg s.req = frameResponse k s.cfg s.req := by
    rcases hi with rfl | rfl
    · exact decodeResponse_eq_frameResponse hk
    · exact instrResponse_decodeKind k s.cfg s.req
  rw [exec_eq, hresp]
  simp [frameResponse, hn, Nat.not_lt.2 h17]

/-- The CF-R arm (R84, R121) of a frame that passes checks (5) and (6). -/
theorem decodeArm_controlId {c : Config} {r : Request} {n : Nat} {k : Byte} {id : Id} (hk : kindClass k = .controlId)
    (hlen : controlLengthOk c n 25 = true) (hzero : zeroFieldsOk c r = .ok true)
    (hid : BufferHolds r.inbuf 17 (bytesBE 8 id.toNat)) : decodeArm c r n k = .ok (controlDecoded k (some id)) := by
  simp [decodeArm, hk, decodeControlId, hlen, hzero, memRead_of_holds_id hid]

/-- The CF-H arm (R85, R121) of a frame that passes checks (5) and (6). -/
theorem decodeArm_handshake {c : Config} {r : Request} {n : Nat} {k : Byte} (hk : kindClass k = .handshake)
    (hlen : controlLengthOk c n 17 = true) (hzero : zeroFieldsOk c r = .ok true) :
    decodeArm c r n k = .ok (controlDecoded k none) := by
  simp [decodeArm, hk, decodeHandshake, hlen, hzero]

/-- Settles O28: both checks pass, so the CF-R arm of the kind byte answers. -/
theorem decodeControlIdFields : Obligations.DecodeControlIdFields := by
  unfold Obligations.DecodeControlIdFields
  intro s i k id n hk hi hn hlen hzero h16 hid
  rw [exec_of_kind (decode_or_row_of_kind hi) hn (by omega) h16, decodeArm_controlId (kindClass_controlId.2 hk) (controlLengthOk_iff.2 hlen)
    (zeroFieldsOk_of_accepted hzero) hid]
  rfl

/-- Settles O29: both checks pass, so the CF-H arm of the kind byte answers. -/
theorem decodeHandshakeFields : Obligations.DecodeHandshakeFields := by
  unfold Obligations.DecodeHandshakeFields
  intro s i k n hk hi hn hlen hzero h16
  rw [exec_of_kind (decode_or_row_of_kind hi) hn (by omega) h16, decodeArm_handshake (kindClass_handshake.2 hk) (controlLengthOk_iff.2 hlen)
    (zeroFieldsOk_of_accepted hzero)]
  rfl

end Sys2Proof.Machine
end

section
/-! The two opcode maps against the encoder (O3): what each map answers is well formed and encodes to the code it was read from,
and the decoder's answer at each shape of input. -/

namespace Sys2Proof

theorem decodeCommand_wf (c : Code) : (decodeCommand c).wf = true := by
  revert c
  decide

/-- The command map is inverted by the encoder (R80, R82). -/
theorem encode_decodeCommand (c : Code) : encode (decodeCommand c) = (.command, c.setWidth 8) := by
  revert c
  decide

/-- R88: the last row of the kind map is reached by no byte of the six codes. -/
theorem decodeKind_wf (k : Byte) : (decodeKind k).wf = true := by
  unfold decodeKind
  split_ifs
  case neg => simp_all [Instr.wf, knownKinds]
  all_goals rfl

/-- The kind map is inverted by the encoder (R86, R88). -/
theorem encode_decodeKind (k : Byte) : encode (decodeKind k) = (.kind, k) := by
  unfold decodeKind
  split_ifs
  all_goals (subst_vars; rfl)

/-- A byte that fits CMD's three bits is the code written back as a byte (R32). -/
theorem setWidth_code_of_lt {b : Byte} (h : b.toNat < 8) : (b.setWidth 3).setWidth 8 = b := by
  apply BitVec.eq_of_toNat_eq
  simp only [BitVec.toNat_setWidth]
  omega

@[simp] theorem decode_nil (m : OpMap) : decode m [] = .error .noByte := rfl

@[simp] theorem decode_kind_cons (b : Byte) (rest : List Byte) : decode .kind (b :: rest) = .ok (decodeKind b, rest) := rfl

theorem decode_command_of_lt {b : Byte} (rest : List Byte) (h : b.toNat < 8) :
    decode .command (b :: rest) = .ok (decodeCommand (b.setWidth 3), rest) := if_pos h

theorem decode_command_of_ge {b : Byte} (rest : List Byte) (h : 8 ≤ b.toNat) :
    decode .command (b :: rest) = .error (.notACommandCode b) := if_neg (by omega)

/-- Everything the decoder accepts: a well-formed instruction whose code, in the map asked for, is the byte taken. -/
theorem decode_eq_ok {m : OpMap} {bytes rest : List Byte} {i : Instr} (h : decode m bytes = .ok (i, rest)) :
    ∃ b, bytes = b :: rest ∧ i.wf = true ∧ encode i = (m, b) := by
  cases bytes with
  | nil => simp at h
  | cons b bs =>
    cases m with
    | kind =>
      simp only [decode_kind_cons, Except.ok.injEq, Prod.mk.injEq] at h
      obtain ⟨rfl, rfl⟩ := h
      exact ⟨b, rfl, decodeKind_wf b, encode_decodeKind b⟩
    | command =>
      rcases Nat.lt_or_ge b.toNat 8 with hb | hb
      · simp only [decode_command_of_lt bs hb, Except.ok.injEq, Prod.mk.injEq] at h
        obtain ⟨rfl, rfl⟩ := h
        exact ⟨b, rfl, decodeCommand_wf _, by rw [encode_decodeCommand, setWidth_code_of_lt hb]⟩
      · simp [decode_command_of_ge bs hb] at h

/-- Everything the decoder rejects: no byte, and a byte above CMD's three bits (R32). -/
theorem decode_eq_error {m : OpMap} {bytes : List Byte} {e : DecodeError} :
    decode m bytes = .error e ↔
      (bytes = [] ∧ e = .noByte) ∨ (m = .command ∧ ∃ b rest, bytes = b :: rest ∧ 8 ≤ b.toNat ∧ e = .notACommandCode b) := by
  cases bytes with
  | nil => simp [eq_comm]
  | cons b bs =>
    cases m with
    | kind => simp
    | command =>
      rcases Nat.lt_or_ge b.toNat 8 with hb | hb
      · simp [decode_command_of_lt bs hb, hb]
      · simp [decode_command_of_ge bs hb, hb, eq_comm]

/-- Settles O3: what is accepted and what is rejected, over both maps and every byte list. -/
theorem encodeOfDecode : Obligations.EncodeOfDecode := by
  unfold Obligations.EncodeOfDecode
  intro m bytes
  refine ⟨fun i rest h => ?_, fun e => decode_eq_error⟩
  obtain ⟨b, rfl, hwf, henc⟩ := decode_eq_ok h
  simp [hwf, henc]

end Sys2Proof
end

section
/-! The host's writes and its issue of a command (O7 to O9): one equation per write of an idle and of a busy block. -/

namespace Sys2Proof.Machine

theorem hostWrite_of_idle {s : State} (hb : s.busy = false) (r : Request) : hostWrite s r = .next (s.withReq r) := by
  simp [hostWrite, hb]

theorem hostWrite_of_busy {s : State} (hb : s.busy = true) (r : Request) :
    hostWrite s r = .refused .requestWriteWhileBusy := by
  simp [hostWrite, hb]

theorem hostWriteInlen_of_idle {s : State} {n : Nat} (hb : s.busy = false) (hn : n ≤ s.cfg.bufBytes) :
    hostWriteInlen s n = .next (s.withReq { s.req with inlen := some n }) := by
  simp [hostWriteInlen, hb, hn]

theorem hostWriteInlen_of_busy {s : State} (hb : s.busy = true) (n : Nat) :
    hostWriteInlen s n = .refused .requestWriteWhileBusy := by
  simp [hostWriteInlen, hb]

theorem hostWriteInlen_above {s : State} {n : Nat} (hb : s.busy = false) (hn : s.cfg.bufBytes < n) :
    hostWriteInlen s n = .refused (.inlenAboveBuffer n) := by
  simp [hostWriteInlen, hb, Nat.not_le.2 hn]

theorem hostWriteInbuf_of_idle {s : State} {a : Nat} {bs : List Byte} (hb : s.busy = false)
    (ha : a + bs.length ≤ s.cfg.bufBytes) :
    hostWriteInbuf s a bs = .next (s.withReq { s.req with inbuf := Memory.writeBytes s.req.inbuf a bs }) := by
  simp [hostWriteInbuf, hb, ha]

theorem hostWriteInbuf_of_busy {s : State} (hb : s.busy = true) (a : Nat) (bs : List Byte) :
    hostWriteInbuf s a bs = .refused .requestWriteWhileBusy := by
  simp [hostWriteInbuf, hb]

theorem hostIssue_of_idle {s : State} (hb : s.busy = false) (c : Code) : hostIssue s c = .next (s.issued c) := by
  simp [hostIssue, hb]

theorem hostIssue_of_busy {s : State} (hb : s.busy = true) (c : Code) : hostIssue s c = .refused .issueWhileBusy := by
  simp [hostIssue, hb]

/-- A byte outside a stored string keeps its content (R65). -/
theorem Memory.read_writeBytes_outside {m : Memory} {a x : Nat} {bs : List Byte} (h : x < a ∨ a + bs.length ≤ x) :
    Memory.read (Memory.writeBytes m a bs) x = Memory.read m x := by
  rw [Memory.read_writeBytes, if_neg (by omega)]

/-- The step of a live block at a host move other than reset and `wait` answers what the move does. -/
theorem step_eq_of_hostMove {s : State} {m : HostMove} {rest : List HostMove} {o : Host.Outcome State Fault Refusal}
    (hm : s.hostMoves = m :: rest) (hf : s.faultRecord = none) (h : hostMove m (s.withMoves rest) = o)
    (hr : m ≠ .reset := by simp) (hw : m ≠ .wait := by simp) : step s = o :=
  (step_hostMove hm hf hr hw).trans h

/-- Settles O7: the issue while BUSY = 0, the refusal while BUSY = 1. -/
theorem issueStep : Obligations.IssueStep := by
  unfold Obligations.IssueStep
  intro s c rest hm hf
  refine ⟨fun (hb : (s.withMoves rest).busy = false) =>
      ⟨(s.withMoves rest).issued c, step_eq_of_hostMove hm hf (hostIssue_of_idle hb c), ?_⟩,
    fun (hb : (s.withMoves rest).busy = true) => step_eq_of_hostMove hm hf (hostIssue_of_busy hb c)⟩
  simp [Response.blank, hf]

/-- Settles O8: each write of an idle block is an update of its register, or of its bytes of INBUF. -/
theorem hostWritesTakeEffect : Obligations.HostWritesTakeEffect := by
  unfold Obligations.HostWritesTakeEffect
  intro s rest hf hb
  have hidle : (s.withMoves rest).busy = false := hb
  refine ⟨fun v hm => ?_, fun v hm => ?_, fun v hm => ?_, fun v hm => ?_, fun v hm => ?_, fun n hm hn => ?_,
    fun a bs hm ha => ⟨Memory.writeBytes s.req.inbuf a bs, ?_, Memory.bufferHolds_writeBytes s.req.inbuf a bs,
      fun x hx => Memory.read_writeBytes_outside hx⟩⟩
  · exact step_eq_of_hostMove hm hf (hostWrite_of_idle hidle _)
  · exact step_eq_of_hostMove hm hf (hostWrite_of_idle hidle _)
  · exact step_eq_of_hostMove hm hf (hostWrite_of_idle hidle _)
  · exact step_eq_of_hostMove hm hf (hostWrite_of_idle hidle _)
  · exact step_eq_of_hostMove hm hf (hostWrite_of_idle hidle _)
  · exact step_eq_of_hostMove hm hf (hostWriteInlen_of_idle hidle hn)
  · exact step_eq_of_hostMove hm hf (hostWriteInbuf_of_idle hidle ha)

/-- Settles O9: a busy block refuses every write, and an idle one a length that INBUF cannot hold. -/
theorem hostViolationsHaveNoMove : Obligations.HostViolationsHaveNoMove := by
  unfold Obligations.HostViolationsHaveNoMove
  intro s rest hf
  refine ⟨fun (hb : (s.withMoves rest).busy = true) => ⟨fun m hwrite hm => ?_,
      fun c hm => step_eq_of_hostMove hm hf (hostIssue_of_busy hb c)⟩,
    fun (hb : (s.withMoves rest).busy = false) n hn hm => step_eq_of_hostMove hm hf (hostWriteInlen_above hb hn)⟩
  rcases hwrite with ⟨v, rfl⟩ | ⟨v, rfl⟩ | ⟨v, rfl⟩ | ⟨v, rfl⟩ | ⟨v, rfl⟩ | ⟨n, rfl⟩ | ⟨a, bs, rfl⟩
  · exact step_eq_of_hostMove hm hf (hostWrite_of_busy hb _)
  · exact step_eq_of_hostMove hm hf (hostWrite_of_busy hb _)
  · exact step_eq_of_hostMove hm hf (hostWrite_of_busy hb _)
  · exact step_eq_of_hostMove hm hf (hostWrite_of_busy hb _)
  · exact step_eq_of_hostMove hm hf (hostWrite_of_busy hb _)
  · exact step_eq_of_hostMove hm hf (hostWriteInlen_of_busy hb n)
  · exact step_eq_of_hostMove hm hf (hostWriteInbuf_of_busy hb a bs)

end Sys2Proof.Machine
end

section
/-! The host's reads (O10, O52): what a read of one register answers, and a grouped read of OUTBUF byte by byte and as two reads. -/

namespace Sys2Proof.Machine

/-- The host's moves still to come have no part in what a read gives. -/
@[simp] theorem hostRead_withMoves (s : State) (ms : List HostMove) (r : ResponseReg) :
    hostRead (s.withMoves ms) r = hostRead s r := by
  cases r <;> rfl

@[simp] theorem hostReadOutbuf_withMoves (s : State) (ms : List HostMove) (a n : Nat) :
    hostReadOutbuf (s.withMoves ms) a n = hostReadOutbuf s a n := by
  induction n generalizing a with
  | zero => rfl
  | succ n ih => simp only [hostReadOutbuf_succ, hostRead_withMoves, ih]

/-- A read of one register by a live block is its answer, and the move taken (R67). -/
theorem step_read {s : State} {r : ResponseReg} {rest : List HostMove} (hm : s.hostMoves = .read r :: rest)
    (hf : s.faultRecord = none) : step s = readDone (s.withMoves rest) (hostRead s r) := by
  rw [step_hostMove hm hf (by simp) (by simp)]
  simp [hostMove]

/-- A grouped read of OUTBUF by a live block is its answer, and the move taken (R65, R67). -/
theorem step_readOutbuf {s : State} {a n : Nat} {rest : List HostMove} (hm : s.hostMoves = .readOutbuf a n :: rest)
    (hf : s.faultRecord = none) : step s = readDone (s.withMoves rest) (hostReadOutbuf s a n) := by
  rw [step_hostMove hm hf (by simp) (by simp)]
  simp [hostMove]

/-- Only an OUTBUF byte has an address to be outside the buffer (R60). -/
theorem responseAddressOk_of_outbuf_lt {s : State} {r : ResponseReg} (h : ∀ a, r = .outbuf a → a < s.cfg.bufBytes) :
    responseAddressOk s r = true := by
  cases r with
  | outbuf a => simpa [responseAddressOk] using h a rfl
  | _ => rfl

/-- BUSY and RESP_VALID apart, a register is readable while RESP_VALID = 1 (R217). -/
theorem responseReadable_eq_respValid {s : State} {r : ResponseReg} (hb : r ≠ .busy) (hv : r ≠ .respValid) :
    responseReadable s r = s.respValid := by
  cases r with
  | busy => exact absurd rfl hb
  | respValid => exact absurd rfl hv
  | _ => rfl

theorem hostRead_busy (s : State) : hostRead s .busy = .ok s.busy.toNat := rfl

theorem hostRead_respValid (s : State) : hostRead s .respValid = .ok s.respValid.toNat := rfl

section
variable {s : State} {r : ResponseReg} (hb : r ≠ .busy) (hv : r ≠ .respValid)
  (ha : ∀ a, r = .outbuf a → a < s.cfg.bufBytes)
include hb hv ha

/-- A read of a register that holds a value, with RESP_VALID = 1, gives the value (R67, R217). -/
theorem hostRead_of_value {v : Nat} (hvalid : s.respValid = true) (hval : responseValue s r = some v) :
    hostRead s r = .ok v := by
  simp [hostRead, responseAddressOk_of_outbuf_lt ha, responseReadable_eq_respValid hb hv, hvalid, hval]

/-- A read with RESP_VALID = 0, or of a register that is ⊥, is the fault UNWRITTEN_RESPONSE (R56, R217). -/
theorem hostRead_of_unwritten (h : s.respValid = false ∨ responseValue s r = none) :
    hostRead s r = .error (.unwrittenResponse r) := by
  rcases h with h | h
  · simp [hostRead, responseAddressOk_of_outbuf_lt ha, responseReadable_eq_respValid hb hv, h]
  · cases hvalid : s.respValid <;>
      simp [hostRead, responseAddressOk_of_outbuf_lt ha, responseReadable_eq_respValid hb hv, h, hvalid]

end

/-- Settles O10: the value and the move taken, or the fault. -/
theorem hostReadsOrFaults : Obligations.HostReadsOrFaults := by
  unfold Obligations.HostReadsOrFaults
  intro s r rest hm hf
  rw [step_read hm hf]
  refine ⟨?_, ?_, fun hb hv ha => ⟨fun hvalid v hval => ?_, fun h => ?_⟩⟩
  · rintro rfl
    exact ⟨hostRead_busy s, rfl⟩
  · rintro rfl
    exact ⟨hostRead_respValid s, rfl⟩
  · rw [hostRead_of_value hb hv ha hvalid hval]
    exact ⟨rfl, rfl⟩
  · rw [hostRead_of_unwritten hb hv ha h, readDone_error]

/-! ### Grouped reads of OUTBUF -/

/-- A byte of OUTBUF that holds a value reads as it, with RESP_VALID = 1. -/
theorem hostRead_outbuf_of_byte {s : State} {a : Nat} {b : Byte} (ha : a < s.cfg.bufBytes) (hvalid : s.respValid = true)
    (hb : Memory.read s.resp.outbuf a = some b) : hostRead s (.outbuf a) = .ok b.toNat :=
  hostRead_of_value (by simp) (by simp) (by simp [ha]) hvalid (by simp [responseValue, hb])

/-- A byte of OUTBUF that is ⊥, or any with RESP_VALID = 0, faults. -/
theorem hostRead_outbuf_of_unwritten {s : State} {a : Nat} (ha : a < s.cfg.bufBytes)
    (h : s.respValid = false ∨ Memory.read s.resp.outbuf a = none) :
    hostRead s (.outbuf a) = .error (.unwrittenResponse (.outbuf a)) :=
  hostRead_of_unwritten (by simp) (by simp) (by simp [ha]) (h.imp_right (by simp +contextual [responseValue]))

/-- A grouped read of bytes that OUTBUF holds gives them. -/
theorem hostReadOutbuf_of_holds {s : State} {a : Nat} {bs : List Byte} (ha : a + bs.length ≤ s.cfg.bufBytes)
    (hvalid : s.respValid = true) (h : BufferHolds s.resp.outbuf a bs) :
    hostReadOutbuf s a bs.length = .ok (bs.map BitVec.toNat) := by
  refine hostReadOutbuf_eq_ok.2 ⟨by simp, fun i hi => ?_⟩
  have hlen : i < bs.length := by simpa using hi
  rw [List.getElem_map]
  exact hostRead_outbuf_of_byte (by omega) hvalid (by rw [h i hlen, List.getElem?_eq_getElem hlen])

/-- A grouped read of p + q bytes is a read of p bytes and then one of the q bytes after them (R65). -/
theorem hostReadOutbuf_add (s : State) (a p q : Nat) :
    hostReadOutbuf s a (p + q) =
      (hostReadOutbuf s a p >>= fun xs => hostReadOutbuf s (a + p) q >>= fun ys => pure (xs ++ ys)) := by
  induction p generalizing a with
  | zero => cases h : hostReadOutbuf s a q <;> simp [h]
  | succ p ih =>
    rw [Nat.succ_add, hostReadOutbuf_succ, hostReadOutbuf_succ, ih, Nat.add_right_comm a 1 p]
    simp only [bind_assoc, pure_bind, List.cons_append, ← Nat.add_assoc]

/-- Settles O52: the string, the first fault, and the split of a group. -/
theorem readGrouping : Obligations.ReadGrouping := by
  unfold Obligations.ReadGrouping
  intro s a n rest hm hf hfit
  rw [step_readOutbuf hm hf]
  refine ⟨fun hvalid bs hlen hbs => ?_, fun hvalid i hi hnone hwritten => ?_, fun hinvalid hpos => ?_,
    fun p q vs hpq => ?_⟩
  · subst hlen
    rw [hostReadOutbuf_of_holds hfit hvalid hbs]
    exact ⟨rfl, rfl⟩
  · have hfault := hostRead_outbuf_of_unwritten (s := s) (a := a + i) (by omega) (.inr hnone)
    rw [hostReadOutbuf_eq_error.2 ⟨i, hi, hfault, fun j hj => ?_⟩, readDone_error]
    obtain ⟨b, hb⟩ := Option.ne_none_iff_exists'.1 (hwritten j hj)
    exact ⟨b.toNat, hostRead_outbuf_of_byte (by omega) hvalid hb⟩
  · have hfault := hostRead_outbuf_of_unwritten (s := s) (a := a) (by omega) (.inl hinvalid)
    rw [hostReadOutbuf_eq_error.2 ⟨0, hpos, hfault, by simp⟩, readDone_error]
  · subst hpq
    simp only [hostReadOutbuf_add, except_bind_eq_ok, except_pure, Except.ok.injEq, exists_and_left, eq_comm (b := vs)]

end Sys2Proof.Machine
end

section
/-! The block's own step (O11, O13, O16, O42): a faulted block, the pending command, a completion that faults, and a command
issued again. -/

namespace Sys2Proof.Machine

/-- R186: a faulted block whose next move is no reset stays faulted. -/
theorem step_of_faulted {s : State} {f : Fault} (hf : s.faultRecord = some f)
    (hm : ∀ rest, s.hostMoves ≠ .reset :: rest) : step s = .fault f := by
  unfold step
  split
  · rw [hf]
  · rename_i m rest hcons
    have hne : m ≠ .reset := fun h => hm rest (h ▸ hcons)
    rw [if_neg hne, hf]

/-- Settles O11: of the four kinds of step that answer a state only the reset is open to a faulted block. -/
theorem faultedBlockOnlyResets : Obligations.FaultedBlockOnlyResets := by
  unfold Obligations.FaultedBlockOnlyResets
  intro s f hf
  refine ⟨step_of_faulted hf, fun t ht => ?_⟩
  rcases step_cases ht with ⟨-, hnone, -⟩ | ⟨rest, -, hnone, -⟩ | ⟨rest, hm, rfl⟩ | ⟨m, rest, -, -, -, hnone, -⟩
  · exact absurd (hnone.symm.trans hf) (by simp)
  · exact absurd (hnone.symm.trans hf) (by simp)
  · exact ⟨hf, rest, hm⟩
  · exact absurd (hnone.symm.trans hf) (by simp)

/-- The code in CMD, written as a byte, decodes to its command row (R80). -/
theorem decode_command_code (c : Code) : decode .command [c.setWidth 8] = .ok (decodeCommand c, []) := by
  revert c
  decide

/-- Settles O13: the instruction that CMD decodes to is the one that the block fetches. -/
theorem stepRunsPendingCommand : Obligations.StepRunsPendingCommand := by
  unfold Obligations.StepRunsPendingCommand
  intro s c i hb hf hc hdec _
  obtain rfl : decodeCommand c = i := by simpa [decode_command_code] using hdec
  exact ⟨fun hm => step_pending hm hf hb hc, fun rest hm => step_wait hm hf hb hc⟩

/-- The state that a faulting step leaves: the fault recorded, nothing else written (R54, R186). -/
theorem settle_of_fault {s : State} {f : Fault} (h : step s = .fault f) : settle s = s.recordFault f := by
  simp [settle, h]

/-- Settles O16: the completion is the step, so its fault is what `settle` records. -/
theorem faultedCompletionWritesNothing : Obligations.FaultedCompletionWritesNothing := by
  unfold Obligations.FaultedCompletionWritesNothing
  intro s c f hb hf hm hc hfault
  rw [settle_of_fault ((step_pending hm hf hb hc).trans hfault)]
  exact ⟨rfl, hb, step_of_faulted rfl (by simp [hm])⟩

/-- A completion leaves no trace of the response registers before it: issued again with CMD as it was, the command completes in the
same state (R30, R67). -/
theorem completed_issued_again {s : State} {c : Code} {p : Response} (hc : s.req.cmd = some c) (hm : s.hostMoves = []) :
    (((s.completed p).withMoves []).issued c).completed p = s.completed p := by
  have hreq : { s.req with cmd := some c } = s.req := by rw [← hc]
  simp only [State.completed, State.withMoves, State.issued, hreq, hm]

/-- Settles O42: the issue of the same command, then its completion from the same request registers. -/
theorem reissueRepeatsResponse : Obligations.ReissueRepeatsResponse := by
  unfold Obligations.ReissueRepeatsResponse
  intro s t c hb hf hm hc hstep
  rw [step_pending hm hf hb hc] at hstep
  obtain ⟨p, hp, rfl⟩ := exec_eq_next.1 hstep
  have hissue : step ((s.completed p).withMoves [.writeCmd c]) = .next (((s.completed p).withMoves []).issued c) :=
    step_eq_of_hostMove (rest := []) rfl hf rfl
  have hcomplete : step (((s.completed p).withMoves []).issued c) = exec (decodeCommand c) _ := step_pending rfl hf rfl rfl
  have hreq : (((s.completed p).withMoves []).issued c).req = s.req := by simp [← hc]
  rw [run_of_step hissue, run_one, hcomplete, exec_eq_next, hreq]
  exact ⟨p, hp, (completed_issued_again hc hm).symm⟩

end Sys2Proof.Machine
end

section
/-! Every completion (O36, O37, O39): what R55's table says of a response (`responseOk`), read off register by register. -/

namespace Sys2Proof.Machine

/-- An address holds a value exactly when the buffer lists it. -/
theorem Memory.read_ne_none_iff {m : Memory} {a : Nat} : Memory.read m a ≠ none ↔ a ∈ m.map Prod.fst := by
  induction m with
  | nil => simp
  | cons cell rest ih =>
    obtain ⟨c, b⟩ := cell
    by_cases h : a = c
    · simp [Memory.read, h]
    · simpa [Memory.read, h] using ih

/-- OUTBUF is defined exactly at [0 .. OUTLEN), and nowhere while OUTLEN is ⊥ (R46, R55). -/
theorem read_outbuf_ne_none_iff {p : Response} (h : outbufExact p) {a : Nat} :
    Memory.read p.outbuf a ≠ none ↔ ∃ n, p.outlen = some n ∧ a < n := by
  rw [Memory.read_ne_none_iff, h, List.mem_range]
  cases p.outlen <;> simp

/-- R55, R181: every completion leaves the registers of its command's row, OUTBUF to OUTLEN, and a STATUS of its command. -/
theorem exec_responseOk {i : Instr} {s t : State} (h : exec i s = .next t) :
    definedRegs t.resp = expectedRegs (commandCode i) t.resp ∧ outbufExact t.resp ∧
      ∃ st, t.resp.status = some st ∧ st ∈ statusesOf (commandCode i) := by
  obtain ⟨p, hp, rfl⟩ := exec_eq_next.1 h
  exact responseOk_iff.1 (responseOk_of_instrResponse hp)

/-- D_KIND is written by DECODE alone, with OUTLEN = 0 for a control frame (R45, R121). -/
theorem outlen_of_dKind_control {i : Instr} {c : Config} {r : Request} {p : Response} {k : Byte}
    (h : instrResponse i c r = .ok p) (hk : p.dKind = some k) (hcontrol : kindClass k ≠ .dataFile) : p.outlen = some 0 := by
  rcases instrResponse_ok h with ⟨st, -, -, rfl⟩ | ⟨-, v, rfl⟩ | ⟨-, frame, n, -, -, -, rfl⟩ | ⟨-, frame, -, rfl⟩ |
    ⟨-, k', seq, next, ck, bs, hclass, -, rfl⟩ | ⟨-, k', id, -, rfl⟩ | ⟨-, k', -, rfl⟩ | ⟨-, v, ok, rfl⟩
  · exact absurd hk (by simp)
  · exact absurd hk (by simp)
  · exact absurd hk (by simp [frameOut])
  · exact absurd hk (by simp [frameOut])
  · obtain rfl : k' = k := Option.some.inj hk
    exact absurd hclass hcontrol
  · rfl
  · rfl
  · exact absurd hk (by simp)

/-- Settles O36: the row of R55's table, and OUTLEN = 0 for a decoded control frame. -/
theorem responseDefinedRegs : Obligations.ResponseDefinedRegs := by
  unfold Obligations.ResponseDefinedRegs
  intro i s t h
  obtain ⟨hregs, hout, -⟩ := exec_responseOk h
  obtain ⟨p, hp, rfl⟩ := exec_eq_next.1 h
  refine ⟨rfl, rfl, hregs, fun k hk h0 h2 => ?_, fun a => read_outbuf_ne_none_iff hout⟩
  exact outlen_of_dKind_control hp hk (by simp [kindClass_dataFile, h0, h2])

/-- OUTLEN of ENCODE_DATA is the frame's length (R111). -/
theorem encodeData_outlen {c : Config} {r : Request} {p : Response} {m : Nat} (h : encodeDataResponse c r = .ok p)
    (hm : p.outlen = some m) : ∃ n, r.inlen = some n ∧ m = 23 + n := by
  rcases encodeDataResponse_ok h with rfl | ⟨k, seq, next, bs, inject, -, -, hn, -, -, -, -, -, -, rfl⟩
  · exact absurd hm (by simp)
  · exact ⟨bs.length, hn, (Option.some.inj hm).symm⟩

/-- OUTLEN of ENCODE_CONTROL is that of CF-R or of CF-H (R116). -/
theorem encodeControl_outlen {r : Request} {p : Response} {m : Nat} (h : encodeControlResponse r = .ok p)
    (hm : p.outlen = some m) : m = 25 ∨ m = 17 := by
  rcases encodeControlResponse_ok h with rfl | ⟨k, id, -, -, -, rfl⟩ | ⟨k, -, -, rfl⟩
  · exact absurd hm (by simp)
  · exact .inl (Option.some.inj hm).symm
  · exact .inr (Option.some.inj hm).symm

/-- Settles O37: a completion writes BUSY, RESP_VALID and the response registers alone, and OUTBUF up to OUTLEN. -/
theorem completionFrame : Obligations.CompletionFrame := by
  unfold Obligations.CompletionFrame
  intro i s t h
  obtain ⟨-, hout, -⟩ := exec_responseOk h
  obtain ⟨p, hp, rfl⟩ := exec_eq_next.1 h
  refine ⟨rfl, rfl, rfl, rfl, fun _ => rfl, fun a ha => ?_, ?_, ?_⟩
  · rw [← hout, ← Memory.read_ne_none_iff, not_not] at ha
    exact ha
  · rintro rfl m hm
    exact encodeData_outlen hp hm
  · rintro rfl m hm
    exact encodeControl_outlen hp hm

/-- No command lists a STATUS code above 4 (R181). -/
theorem statusesOf_le_four {c : Code} {st : BitVec 3} (h : st ∈ statusesOf c) : st.toNat ≤ 4 := by
  revert c st
  decide

/-- Settles O39: the STATUS of a completion is one of its command's list. -/
theorem statusPerCommand : Obligations.StatusPerCommand := by
  unfold Obligations.StatusPerCommand
  intro i s t h
  obtain ⟨-, -, st, hst, hmem⟩ := exec_responseOk h
  exact ⟨st, hst, hmem, statusesOf_le_four hmem⟩

end Sys2Proof.Machine
end

section
/-! Where a completion faults (R56): `FaultsWithin`, the operands at which a sequence of reads may stop, and its rules for each
operand form; the bytes that a read which answers has found written; CRC32 (O20). -/

namespace Sys2Proof.Machine

/-- If the reads stop, they stop with UNWRITTEN_OPERAND (R56) at an operand of which `P` holds. -/
def FaultsWithin {α : Type} (P : Operand → Prop) (x : Except Fault α) : Prop :=
  ∀ f, x = .error f → ∃ o, f = .unwrittenOperand o ∧ P o

section
variable {α β : Type} {P Q : Operand → Prop}

theorem FaultsWithin.mono {x : Except Fault α} (h : FaultsWithin P x) (hPQ : ∀ o, P o → Q o) : FaultsWithin Q x := by
  intro f hf
  obtain ⟨o, rfl, ho⟩ := h f hf
  exact ⟨o, rfl, hPQ o ho⟩

theorem faultsWithin_ok (v : α) : FaultsWithin P (.ok v) := by
  intro f hf
  simp at hf

theorem FaultsWithin.bind {x : Except Fault α} {g : α → Except Fault β} (hx : FaultsWithin P x)
    (hg : ∀ v, x = .ok v → FaultsWithin P (g v)) : FaultsWithin P (x >>= g) := by
  intro f hf
  rcases except_bind_eq_error.1 hf with h | ⟨v, hv, h⟩
  · exact hx f h
  · exact hg v hv f h

theorem faultsWithin_ite {c : Prop} [Decidable c] {x y : Except Fault α} (hx : c → FaultsWithin P x)
    (hy : ¬c → FaultsWithin P y) : FaultsWithin P (if c then x else y) := by
  split
  · exact hx ‹_›
  · exact hy ‹_›

/-- A register read stops only where the register is ⊥. -/
theorem faultsWithin_need {what : Operand} {v : Option α} (h : v = none → P what) : FaultsWithin P (need what v) := by
  intro f hf
  obtain ⟨hv, rfl⟩ := need_eq_error.1 hf
  exact ⟨what, rfl, h hv⟩

/-- A read of a string of INBUF stops only at a byte of it that is ⊥. -/
theorem faultsWithin_inBytes {r : Request} {a n : Nat}
    (h : ∀ x, a ≤ x → x < a + n → Memory.read r.inbuf x = none → P (.inbuf x)) : FaultsWithin P (inBytes r a n) := by
  intro f hf
  obtain ⟨i, hi, rfl, hnone, -⟩ := inBytes_eq_error.1 hf
  exact ⟨_, rfl, h (a + i) (by omega) (by omega) hnone⟩

theorem faultsWithin_memRead {r : Request} {a n : Nat}
    (h : ∀ x, a ≤ x → x < a + n → Memory.read r.inbuf x = none → P (.inbuf x)) : FaultsWithin P (memRead r a n) :=
  fun f hf => faultsWithin_inBytes h f (memRead_eq_error.1 hf)

end

/-! ### What a read that answers has found written -/

theorem BufferHolds.written {m : Memory} {a x : Nat} {bs : List Byte} (h : BufferHolds m a bs) (hlo : a ≤ x)
    (hhi : x < a + bs.length) : Memory.read m x ≠ none := by
  have hx := h (x - a) (by omega)
  rw [Nat.add_sub_cancel' hlo] at hx
  rw [hx, Ne, List.getElem?_eq_none_iff]
  omega

theorem inBytes_written {r : Request} {a n x : Nat} {bs : List Byte} (h : inBytes r a n = .ok bs) (hlo : a ≤ x)
    (hhi : x < a + n) : Memory.read r.inbuf x ≠ none := by
  obtain ⟨rfl, hb⟩ := inBytes_eq_ok.1 h
  exact hb.written hlo hhi

theorem memRead_written {r : Request} {a n v x : Nat} (h : memRead r a n = .ok v) (hlo : a ≤ x)
    (hhi : x < a + n) : Memory.read r.inbuf x ≠ none := by
  obtain ⟨bs, rfl, hb, -⟩ := memRead_eq_ok.1 h
  exact hb.written hlo hhi

/-- Settles O20: INLEN first, then the first byte of INBUF[0 .. INLEN) that is ⊥. -/
theorem crc32Faults : Obligations.Crc32Faults := by
  unfold Obligations.Crc32Faults
  intro s
  refine ⟨fun hn => exec_eq_fault.2 ?_, fun n a hn ha hnone hfirst => exec_eq_fault.2 ?_⟩
  · simp [instrResponse, crc32Response, hn]
  · have hread : inBytes s.req 0 n = .error (.unwrittenOperand (.inbuf a)) :=
      inBytes_eq_error.2 ⟨a, ha, by rw [Nat.zero_add], by simpa using hnone, by simpa using hfirst⟩
    simp [instrResponse, crc32Response, hn, hread]

end Sys2Proof.Machine
end

section
/-! The bytes that an arm of DECODE reads (R121, R123): it faults only at one of them that is ⊥, and where it answers they are all
written (O32). -/

namespace Sys2Proof.Machine

/-- The INBUF bytes, byte 16 apart, that the arm of kind k reads of a datagram of n bytes: `DecodeReads` past the kind byte. -/
def ArmReads (c : Config) (m : Memory) (n : Nat) (k : Byte) (a : Nat) : Prop :=
  (kindClass k = .dataFile ∧ DataFileReads m n a) ∨ ControlReads c m n k a

/-- DECODE reads byte 16 and then what the arm of its kind reads. -/
theorem decodeReads_iff {c : Config} {m : Memory} {n a : Nat} :
    DecodeReads c m n a ↔ 17 ≤ n ∧ (a = 16 ∨ ∃ k, Memory.read m 16 = some k ∧ ArmReads c m n k a) := by
  simp only [DecodeReads, ArmReads, kindClass_dataFile]

/-- An INBUF byte that is ⊥ and of which `P` holds. -/
def UnwrittenByte (m : Memory) (P : Nat → Prop) (o : Operand) : Prop :=
  ∃ a, o = .inbuf a ∧ P a ∧ Memory.read m a = none

/-- The length that a control kind needs, by its class. -/
theorem controlNeeds_iff {k : Byte} {needed : Nat} :
    ControlNeeds k needed ↔
      (kindClass k = .controlId ∧ needed = 25) ∨ (kindClass k = .handshake ∧ needed = 17) := by
  simp only [ControlNeeds, kindClass_controlId, kindClass_handshake]

/-- A data/file kind reads as a data/file frame and no other way. -/
theorem armReads_dataFile {c : Config} {m : Memory} {n a : Nat} {k : Byte} (hk : kindClass k = .dataFile) :
    ArmReads c m n k a ↔ DataFileReads m n a := by
  simp [ArmReads, ControlReads, controlNeeds_iff, hk]

/-- A control kind reads as a control frame of the length it needs. -/
theorem armReads_control {c : Config} {m : Memory} {n needed a : Nat} {k : Byte} (hk : ControlNeeds k needed) :
    ArmReads c m n k a ↔ controlLengthOk c n needed = true ∧
      ((c.zeroPolicy = .requireZero ∧ a < 16) ∨
       (17 ≤ a ∧ a < needed ∧ (c.zeroPolicy = .ignore ∨ BufferHolds m 0 (List.replicate 16 0#8)))) := by
  have hlen : (n = needed ∨ (c.lenPolicy = .atLeast ∧ needed ≤ n)) ↔ controlLengthOk c n needed = true := by
    rw [controlLengthOk_iff]
    cases c.lenPolicy with
    | exact => simp
    | atLeast => simp; omega
  rw [← hlen]
  rcases controlNeeds_iff.1 hk with ⟨hclass, rfl⟩ | ⟨hclass, rfl⟩ <;>
    simp [ArmReads, ControlReads, controlNeeds_iff, hclass]

/-! ### The zero fields -/

/-- Check (6) reads bytes 0 to 15, under REQUIRE_ZERO alone (R12, R123). -/
theorem zeroFieldsOk_faults (c : Config) (r : Request) :
    FaultsWithin (UnwrittenByte r.inbuf fun a => c.zeroPolicy = .requireZero ∧ a < 16) (zeroFieldsOk c r) := by
  unfold zeroFieldsOk
  split
  · exact faultsWithin_ok true
  · rename_i hz
    refine (faultsWithin_memRead fun x _ hx hnone => ⟨x, rfl, ⟨hz, by omega⟩, hnone⟩).bind fun _ _ => ?_
    refine (faultsWithin_memRead fun x _ hx hnone => ⟨x, rfl, ⟨hz, by omega⟩, hnone⟩).bind fun _ _ => ?_
    exact faultsWithin_ok _

theorem zeroFieldsOk_written {c : Config} {r : Request} {b : Bool} {a : Nat} (h : zeroFieldsOk c r = .ok b)
    (hz : c.zeroPolicy = .requireZero) (ha : a < 16) : Memory.read r.inbuf a ≠ none := by
  simp only [zeroFieldsOk, hz, except_bind_eq_ok] at h
  obtain ⟨z0, h0, z1, h1, -⟩ := h
  rcases Nat.lt_or_ge a 8 with ha8 | ha8
  · exact memRead_written h0 (by omega) (by omega)
  · exact memRead_written h1 ha8 (by omega)

theorem beNat_replicate_zero (n : Nat) : beNat (List.replicate n 0#8) = 0 := by
  induction n with
  | zero => rfl
  | succ n ih => simp [List.replicate_succ, beNat_cons, ih]

/-- A field of n bytes whose value is 0 holds n zero bytes. -/
theorem bufferHolds_of_memRead_zero {r : Request} {a n : Nat} (h : memRead r a n = .ok 0) :
    BufferHolds r.inbuf a (List.replicate n 0#8) := by
  obtain ⟨bs, rfl, hb, hzero⟩ := memRead_eq_ok.1 h
  have hbs : bs = List.replicate bs.length 0#8 := beNat_inj (by simp) (by rw [hzero, beNat_replicate_zero])
  exact hbs ▸ hb

/-- Check (6) passes only where the fields are not read or are zero. -/
theorem accepted_of_zeroFieldsOk {c : Config} {r : Request} (h : zeroFieldsOk c r = .ok true) :
    c.zeroPolicy = .ignore ∨ BufferHolds r.inbuf 0 (List.replicate 16 0#8) := by
  cases hz : c.zeroPolicy with
  | ignore => exact .inl rfl
  | requireZero =>
    simp only [zeroFieldsOk, hz, except_bind_eq_ok, except_pure, Except.ok.injEq, decide_eq_true_eq] at h
    obtain ⟨z0, h0, z1, h1, rfl, rfl⟩ := h
    exact .inr (bufferHolds_append (xs := List.replicate 8 0#8) (ys := List.replicate 8 0#8) |>.2
      ⟨bufferHolds_of_memRead_zero h0, bufferHolds_of_memRead_zero h1⟩)

/-! ### The arms of DECODE -/

/-- The DF arm reads payloadLength, and every byte once the length rule holds (R121, R123). -/
theorem decodeDataFile_faults (r : Request) (n : Nat) (k : Byte) :
    FaultsWithin (UnwrittenByte r.inbuf (DataFileReads r.inbuf n)) (decodeDataFile r n k) := by
  unfold decodeDataFile
  refine faultsWithin_ite (fun _ => faultsWithin_ok _) fun h23 => ?_
  refine (faultsWithin_memRead fun x _ _ hnone => ⟨x, rfl, ⟨by omega, by omega⟩, hnone⟩).bind fun len hlen => ?_
  refine faultsWithin_ite (fun _ => faultsWithin_ok _) fun hn => ?_
  have hreads : ∀ x, x < n → Memory.read r.inbuf x = none → UnwrittenByte r.inbuf (DataFileReads r.inbuf n) (.inbuf x) :=
    fun x hx hnone => ⟨x, rfl, ⟨by omega, .inr (.inr ⟨lengthRule_of_memRead hlen (by omega), hx⟩)⟩, hnone⟩
  refine (faultsWithin_memRead fun x _ _ => hreads x (by omega)).bind fun _ _ => ?_
  refine (faultsWithin_memRead fun x _ _ => hreads x (by omega)).bind fun _ _ => ?_
  refine (faultsWithin_inBytes fun x _ _ => hreads x (by omega)).bind fun _ _ => ?_
  refine (faultsWithin_memRead fun x _ _ => hreads x (by omega)).bind fun _ _ => ?_
  exact faultsWithin_ok _

theorem decodeDataFile_written {r : Request} {n a : Nat} {k : Byte} {p : Response} (h : decodeDataFile r n k = .ok p)
    (h16 : Memory.read r.inbuf 16 ≠ none) (ha : DataFileReads r.inbuf n a) : Memory.read r.inbuf a ≠ none := by
  obtain ⟨h23, ha⟩ := ha
  rw [decodeDataFile, if_neg (by omega), except_bind_eq_ok] at h
  obtain ⟨len, hlen, h⟩ := h
  rcases ha with rfl | rfl | ⟨hrule, ha⟩
  · exact memRead_written hlen (by omega) (by omega)
  · exact memRead_written hlen (by omega) (by omega)
  · obtain rfl : n - 23 = len := by simpa [memRead_of_lengthRule hrule] using hlen
    rw [if_neg (by omega)] at h
    simp only [except_bind_eq_ok] at h
    obtain ⟨seq, hseq, next, hnext, q, hq, checksum, hchecksum, -⟩ := h
    by_cases h8 : a < 8
    · exact memRead_written hseq (by omega) (by omega)
    by_cases h15 : a < 16
    · exact memRead_written hnext (by omega) (by omega)
    by_cases ha16 : a = 16
    · exact ha16 ▸ h16
    by_cases h19 : a < 19
    · exact memRead_written hlen (by omega) (by omega)
    by_cases hpayload : a < 19 + (n - 23)
    · exact inBytes_written hq (by omega) (by omega)
    · exact memRead_written hchecksum (by omega) (by omega)

/-- The CF-R arm reads the zero fields, and requestedID once they are accepted (R121, R123). -/
theorem decodeControlId_faults {c : Config} {r : Request} {n : Nat} {k : Byte} (hk : kindClass k = .controlId) :
    FaultsWithin (UnwrittenByte r.inbuf (ArmReads c r.inbuf n k)) (decodeControlId c r n k) := by
  have hneeds : ControlNeeds k 25 := controlNeeds_iff.2 (.inl ⟨hk, rfl⟩)
  unfold decodeControlId
  refine faultsWithin_ite (fun hlen => ?_) fun _ => faultsWithin_ok _
  refine ((zeroFieldsOk_faults c r).mono ?_).bind fun zeros hzeros => faultsWithin_ite (fun htrue => ?_)
    fun _ => faultsWithin_ok _
  · rintro _ ⟨a, rfl, hz, hnone⟩
    exact ⟨a, rfl, (armReads_control hneeds).2 ⟨hlen, .inl hz⟩, hnone⟩
  · subst htrue
    refine (faultsWithin_memRead fun x hlo hhi hnone => ⟨x, rfl, (armReads_control hneeds).2
      ⟨hlen, .inr ⟨hlo, hhi, accepted_of_zeroFieldsOk hzeros⟩⟩, hnone⟩).bind fun _ _ => ?_
    exact faultsWithin_ok _

theorem decodeControlId_written {c : Config} {r : Request} {n a : Nat} {k : Byte} {p : Response}
    (hk : kindClass k = .controlId) (h : decodeControlId c r n k = .ok p) (ha : ArmReads c r.inbuf n k a) :
    Memory.read r.inbuf a ≠ none := by
  obtain ⟨hlen, ha⟩ := (armReads_control (controlNeeds_iff.2 (.inl ⟨hk, rfl⟩))).1 ha
  rw [decodeControlId, if_pos hlen, except_bind_eq_ok] at h
  obtain ⟨zeros, hzeros, h⟩ := h
  rcases ha with ⟨hz, ha⟩ | ⟨hlo, hhi, haccept⟩
  · exact zeroFieldsOk_written hzeros hz ha
  · obtain rfl : true = zeros := by simpa [zeroFieldsOk_of_accepted haccept] using hzeros
    rw [if_pos rfl, except_bind_eq_ok] at h
    obtain ⟨id, hid, -⟩ := h
    exact memRead_written hid hlo hhi

/-- The CF-H arm reads the zero fields alone (R121, R123). -/
theorem decodeHandshake_faults {c : Config} {r : Request} {n : Nat} {k : Byte} (hk : kindClass k = .handshake) :
    FaultsWithin (UnwrittenByte r.inbuf (ArmReads c r.inbuf n k)) (decodeHandshake c r n k) := by
  unfold decodeHandshake
  refine faultsWithin_ite (fun hlen => ?_) fun _ => faultsWithin_ok _
  refine ((zeroFieldsOk_faults c r).mono ?_).bind fun _ _ => faultsWithin_ite (fun _ => faultsWithin_ok _)
    fun _ => faultsWithin_ok _
  rintro _ ⟨a, rfl, hz, hnone⟩
  exact ⟨a, rfl, (armReads_control (controlNeeds_iff.2 (.inr ⟨hk, rfl⟩))).2 ⟨hlen, .inl hz⟩, hnone⟩

theorem decodeHandshake_written {c : Config} {r : Request} {n a : Nat} {k : Byte} {p : Response}
    (hk : kindClass k = .handshake) (h : decodeHandshake c r n k = .ok p) (ha : ArmReads c r.inbuf n k a) :
    Memory.read r.inbuf a ≠ none := by
  obtain ⟨hlen, ha⟩ := (armReads_control (controlNeeds_iff.2 (.inr ⟨hk, rfl⟩))).1 ha
  rw [decodeHandshake, if_pos hlen, except_bind_eq_ok] at h
  obtain ⟨zeros, hzeros, -⟩ := h
  rcases ha with ⟨hz, ha⟩ | ⟨hlo, hhi, -⟩
  · exact zeroFieldsOk_written hzeros hz ha
  · omega

/-- An arm of DECODE faults only at a ⊥ byte that it reads. -/
theorem decodeArm_faults (c : Config) (r : Request) (n : Nat) (k : Byte) :
    FaultsWithin (UnwrittenByte r.inbuf (ArmReads c r.inbuf n k)) (decodeArm c r n k) := by
  unfold decodeArm
  split
  · rename_i hk
    refine (decodeDataFile_faults r n k).mono ?_
    rintro _ ⟨a, rfl, ha, hnone⟩
    exact ⟨a, rfl, (armReads_dataFile hk).2 ha, hnone⟩
  · exact decodeControlId_faults ‹_›
  · exact decodeHandshake_faults ‹_›
  · exact faultsWithin_ok _

/-- Where an arm of DECODE answers, every byte it reads is written. -/
theorem decodeArm_written {c : Config} {r : Request} {n a : Nat} {k : Byte} {p : Response}
    (h16 : Memory.read r.inbuf 16 ≠ none) (h : decodeArm c r n k = .ok p) (ha : ArmReads c r.inbuf n k a) :
    Memory.read r.inbuf a ≠ none := by
  unfold decodeArm at h
  split at h
  · exact decodeDataFile_written h h16 ((armReads_dataFile ‹_›).1 ha)
  · exact decodeControlId_written ‹_› h ha
  · exact decodeHandshake_written ‹_› h ha
  · rename_i hk
    simp [ArmReads, ControlReads, controlNeeds_iff, hk] at ha

/-- DECODE of a datagram of which its arm reads a ⊥ byte faults, and names one such byte. -/
theorem exec_decode_fault {s : State} {n a : Nat} {k : Byte} (hn : s.req.inlen = some n) (h17 : 17 ≤ n)
    (h16 : Memory.read s.req.inbuf 16 = some k) (ha : ArmReads s.cfg s.req.inbuf n k a)
    (hnone : Memory.read s.req.inbuf a = none) :
    ∃ b, exec .decode s = .fault (.unwrittenOperand (.inbuf b)) ∧ ArmReads s.cfg s.req.inbuf n k b ∧
      Memory.read s.req.inbuf b = none := by
  rw [exec_of_kind (.inl rfl) hn h17 h16]
  cases harm : decodeArm s.cfg s.req n k with
  | ok p => exact absurd hnone (decodeArm_written (by simp [h16]) harm ha)
  | error f =>
    obtain ⟨_, rfl, b, rfl, hb, hbnone⟩ := decodeArm_faults s.cfg s.req n k f harm
    exact ⟨b, rfl, hb, hbnone⟩

/-- Settles O32: each clause is a ⊥ byte that the arm of the kind reads, and the byte named is one that it reads. -/
theorem decodeFaults : Obligations.DecodeFaults := by
  unfold Obligations.DecodeFaults
  intro s
  refine ⟨fun hn => exec_eq_fault.2 (by simp [instrResponse, decodeResponse, hn]),
    fun n hn h17 => ⟨fun h16 => exec_eq_fault.2 ?_, ?_, ?_, ?_, ?_⟩⟩
  · simp [instrResponse, decodeResponse, hn, Nat.not_lt.2 h17, inByte, h16]
  · rintro k h16 hk h23 hlen hfit ⟨a, ha, hnone⟩
    have hreads : ArmReads s.cfg s.req.inbuf n k a :=
      (armReads_dataFile (kindClass_dataFile.2 hk)).2 ⟨h23, .inr (.inr ⟨⟨h23, hfit, hlen⟩, ha⟩)⟩
    obtain ⟨b, hfault, hb, hbnone⟩ := exec_decode_fault hn h17 h16 hreads hnone
    exact ⟨b, hfault, decodeReads_lt (decodeReads_iff.2 ⟨h17, .inr ⟨k, h16, hb⟩⟩), hbnone⟩
  · rintro k h16 hk h23 ⟨a, ha, hnone⟩
    have hclass := kindClass_dataFile.2 hk
    have hreads : ArmReads s.cfg s.req.inbuf n k a := (armReads_dataFile hclass).2 ⟨h23, by omega⟩
    obtain ⟨b, hfault, hb, hbnone⟩ := exec_decode_fault hn h17 h16 hreads hnone
    obtain ⟨-, hb | hb | ⟨⟨-, -, hlen⟩, -⟩⟩ := (armReads_dataFile hclass).1 hb
    · exact ⟨b, hfault, .inl hb, hbnone⟩
    · exact ⟨b, hfault, .inr hb, hbnone⟩
    · exact absurd hnone (hlen.written (by omega) (by rw [bytesBE_length]; omega))
  · rintro k h16 hk hlen hzero ⟨a, hlo, hhi, hnone⟩
    have hneeds : ControlNeeds k 25 := .inl ⟨hk, rfl⟩
    have hreads : ArmReads s.cfg s.req.inbuf n k a := .inr ⟨25, hneeds, hlen, .inr ⟨hlo, hhi, hzero⟩⟩
    obtain ⟨b, hfault, hb, hbnone⟩ := exec_decode_fault hn h17 h16 hreads hnone
    obtain ⟨-, ⟨hz, hb⟩ | ⟨hlo', hhi', -⟩⟩ := (armReads_control hneeds).1 hb
    · have hheld : BufferHolds s.req.inbuf 0 (List.replicate 16 0#8) := by simpa [hz] using hzero
      exact absurd hbnone (hheld.written (by omega) (by simpa using hb))
    · exact ⟨b, hfault, hlo', hhi', hbnone⟩
  · rintro k needed h16 hneeds hlen hz ⟨a, ha, hnone⟩
    have hreads : ArmReads s.cfg s.req.inbuf n k a := .inr ⟨needed, hneeds, hlen, .inl ⟨hz, ha⟩⟩
    obtain ⟨b, hfault, hb, hbnone⟩ := exec_decode_fault hn h17 h16 hreads hnone
    obtain ⟨-, ⟨-, hb⟩ | ⟨-, -, hheld⟩⟩ := (armReads_control hneeds).1 hb
    · exact ⟨b, hfault, hb, hbnone⟩
    · have hheld : BufferHolds s.req.inbuf 0 (List.replicate 16 0#8) := by simpa [hz] using hheld
      exact absurd hnone (hheld.written (by omega) (by simpa using ha))

end Sys2Proof.Machine
end

section
/-! No completion stops but at a ⊥ operand (O40): the operands at which each command can fault. -/

namespace Sys2Proof.Machine

theorem UnwrittenByte.operandUnwritten {r : Request} {P : Nat → Prop} {o : Operand} (h : UnwrittenByte r.inbuf P o) :
    operandUnwritten r o := by
  obtain ⟨a, rfl, -, hnone⟩ := h
  exact hnone

section
variable (c : Config) (r : Request)

theorem crc32Response_faults : FaultsWithin (operandUnwritten r) (crc32Response c r) :=
  (faultsWithin_need id).bind fun _ _ =>
  (faultsWithin_inBytes fun _ _ _ => id).bind fun _ _ => faultsWithin_ok _

theorem encodeDataResponse_faults : FaultsWithin (operandUnwritten r) (encodeDataResponse c r) :=
  (faultsWithin_need id).bind fun _ _ =>
  faultsWithin_ite (fun _ => faultsWithin_ok _) fun _ =>
  (faultsWithin_need id).bind fun _ _ =>
  faultsWithin_ite (fun _ => faultsWithin_ok _) fun _ =>
  faultsWithin_ite (fun _ => faultsWithin_ok _) fun _ =>
  (faultsWithin_need id).bind fun _ _ =>
  (faultsWithin_need id).bind fun _ _ =>
  (faultsWithin_inBytes fun _ _ _ => id).bind fun _ _ =>
  (faultsWithin_need id).bind fun _ _ => faultsWithin_ok _

theorem encodeControlResponse_faults : FaultsWithin (operandUnwritten r) (encodeControlResponse r) := by
  refine (faultsWithin_need id).bind fun k _ => ?_
  cases kindClass k with
  | controlId => exact (faultsWithin_need id).bind fun _ _ => faultsWithin_ok _
  | handshake => exact faultsWithin_ok _
  | dataFile => exact faultsWithin_ok _
  | unknown => exact faultsWithin_ok _

theorem decodeArm_faults_operand (n : Nat) (k : Byte) : FaultsWithin (operandUnwritten r) (decodeArm c r n k) :=
  (decodeArm_faults c r n k).mono fun _ => UnwrittenByte.operandUnwritten

theorem decodeResponse_faults : FaultsWithin (operandUnwritten r) (decodeResponse c r) :=
  (faultsWithin_need id).bind fun n _ =>
  faultsWithin_ite (fun _ => faultsWithin_ok _) fun _ =>
  (faultsWithin_need id).bind fun k _ => decodeArm_faults_operand c r n k

theorem frameResponse_faults (k : Byte) : FaultsWithin (operandUnwritten r) (frameResponse k c r) :=
  (faultsWithin_need id).bind fun n _ =>
  faultsWithin_ite (fun _ => faultsWithin_ok _) fun _ => decodeArm_faults_operand c r n k

theorem validateDataFile_faults (n : Nat) : FaultsWithin (operandUnwritten r) (validateDataFile c r n) :=
  faultsWithin_ite (fun _ => faultsWithin_ok _) fun _ =>
  (faultsWithin_memRead fun _ _ _ => id).bind fun _ _ =>
  faultsWithin_ite (fun _ => faultsWithin_ok _) fun _ =>
  (faultsWithin_inBytes fun _ _ _ => id).bind fun _ _ =>
  (faultsWithin_memRead fun _ _ _ => id).bind fun _ _ => faultsWithin_ok _

theorem validateResponse_faults : FaultsWithin (operandUnwritten r) (validateResponse c r) := by
  refine (faultsWithin_need id).bind fun n _ => faultsWithin_ite (fun _ => faultsWithin_ok _) fun _ =>
    (faultsWithin_need id).bind fun k _ => ?_
  cases kindClass k with
  | unknown => exact faultsWithin_ok _
  | controlId => exact faultsWithin_ok _
  | handshake => exact faultsWithin_ok _
  | dataFile => exact validateDataFile_faults c r n

/-- R56: the fault of a completion names an operand that is ⊥. -/
theorem instrResponse_faults (i : Instr) : FaultsWithin (operandUnwritten r) (instrResponse i c r) := by
  cases i
  case crc32 => exact crc32Response_faults c r
  case encodeData => exact encodeDataResponse_faults c r
  case encodeControl => exact encodeControlResponse_faults r
  case decode => exact decodeResponse_faults c r
  case validate => exact validateResponse_faults c r
  case rsv5 => exact faultsWithin_ok _
  case rsv6 => exact faultsWithin_ok _
  case rsv7 => exact faultsWithin_ok _
  all_goals exact frameResponse_faults c r _

end

/-- Settles O40: a completion is `completeWith`, which refuses nothing, of a response whose fault names a ⊥ operand. -/
theorem faultsOnlyOnUnwritten : Obligations.FaultsOnlyOnUnwritten := by
  unfold Obligations.FaultsOnlyOnUnwritten
  intro i s
  refine ⟨fun r => ?_, fun f hf => instrResponse_faults s.cfg s.req i f (exec_eq_fault.1 hf)⟩
  rw [exec_eq]
  exact completeWith_ne_refused s _ r

end Sys2Proof.Machine
end

section
/-! A response depends on what its command reads (O41): two request files that agree on those registers and bytes give one answer. -/

namespace Sys2Proof.Machine

/-- Two sequences of reads are equal when their first reads are, and what follows the value read. -/
theorem except_bind_congr {ε α β : Type} {x y : Except ε α} {f g : α → Except ε β} (hxy : x = y)
    (hfg : ∀ v, x = .ok v → f v = g v) : (x >>= f) = (y >>= g) := by
  subst hxy
  cases x with
  | ok v => exact hfg v rfl
  | error e => rfl

section
variable {c : Config} {r₁ r₂ : Request} {n : Nat} {k : Byte}

theorem crc32Response_congr (hlen : r₁.inlen = r₂.inlen)
    (h : ∀ n, r₁.inlen = some n → ∀ a, a < n → Memory.read r₁.inbuf a = Memory.read r₂.inbuf a) :
    crc32Response c r₁ = crc32Response c r₂ := by
  refine except_bind_congr (by rw [hlen]) fun n hn => except_bind_congr ?_ fun _ _ => rfl
  exact inBytes_congr fun i hi => h n (need_eq_ok.1 hn) (0 + i) (by omega)

theorem encodeDataResponse_congr (hkind : r₁.kind = r₂.kind)
    (h : (r₁.kind = some 0x00#8 ∨ r₁.kind = some 0x02#8) → r₁.inlen = r₂.inlen ∧
      ∀ n, r₁.inlen = some n → n ≤ 65535 → 23 + n ≤ c.bufBytes →
        r₁.seq = r₂.seq ∧ r₁.next = r₂.next ∧ r₁.inject = r₂.inject ∧
        ∀ a, a < n → Memory.read r₁.inbuf a = Memory.read r₂.inbuf a) :
    encodeDataResponse c r₁ = encodeDataResponse c r₂ := by
  refine except_bind_congr (by rw [hkind]) fun k hk => ite_congr rfl (fun _ => rfl) fun hclass => ?_
  have hk : r₁.kind = some 0x00#8 ∨ r₁.kind = some 0x02#8 := by
    simpa [need_eq_ok.1 hk] using kindClass_dataFile.1 (not_not.1 hclass)
  obtain ⟨hlen, h⟩ := h hk
  refine except_bind_congr (by rw [hlen]) fun n hn => ite_congr rfl (fun _ => rfl) fun hmax =>
    ite_congr rfl (fun _ => rfl) fun hfit => ?_
  obtain ⟨hseq, hnext, hinject, hbytes⟩ := h n (need_eq_ok.1 hn) (by omega) (by omega)
  refine except_bind_congr (by rw [hseq]) fun _ _ => except_bind_congr (by rw [hnext]) fun _ _ =>
    except_bind_congr ?_ fun _ _ => except_bind_congr (by rw [hinject]) fun _ _ => rfl
  exact inBytes_congr fun i hi => hbytes (0 + i) (by omega)

theorem encodeControlResponse_congr (hkind : r₁.kind = r₂.kind)
    (h : (r₁.kind = some 0x01#8 ∨ r₁.kind = some 0xC8#8) → r₁.reqid = r₂.reqid) :
    encodeControlResponse r₁ = encodeControlResponse r₂ := by
  refine except_bind_congr (by rw [hkind]) fun k hk => ?_
  cases hclass : kindClass k with
  | controlId =>
    have hk : r₁.kind = some 0x01#8 ∨ r₁.kind = some 0xC8#8 := by
      simpa [need_eq_ok.1 hk] using kindClass_controlId.1 hclass
    exact except_bind_congr (by rw [h hk]) fun _ _ => rfl
  | handshake => rfl
  | dataFile => rfl
  | unknown => rfl

/-- Every byte of a datagram that passed check (4) is read (R121, R159). -/
theorem read_eq_of_dataFileReads {len a : Nat}
    (h : ∀ a, DataFileReads r₁.inbuf n a → Memory.read r₁.inbuf a = Memory.read r₂.inbuf a)
    (hlen : memRead r₁ 17 2 = .ok len) (hn : 19 + len + 4 = n) (ha : a < n) :
    Memory.read r₁.inbuf a = Memory.read r₂.inbuf a :=
  h a ⟨by omega, .inr (.inr ⟨lengthRule_of_memRead hlen (by omega), ha⟩)⟩

theorem decodeDataFile_congr
    (h : ∀ a, DataFileReads r₁.inbuf n a → Memory.read r₁.inbuf a = Memory.read r₂.inbuf a) :
    decodeDataFile r₁ n k = decodeDataFile r₂ n k := by
  refine ite_congr rfl (fun _ => rfl) fun h23 => except_bind_congr ?_ fun len hlen =>
    ite_congr rfl (fun _ => rfl) fun hn => ?_
  · exact memRead_congr fun i hi => h (17 + i) ⟨by omega, by omega⟩
  have hall := fun a => read_eq_of_dataFileReads (a := a) h hlen (not_not.1 hn)
  refine except_bind_congr (memRead_congr fun i hi => hall _ (by omega)) fun _ _ =>
    except_bind_congr (memRead_congr fun i hi => hall _ (by omega)) fun _ _ =>
    except_bind_congr (inBytes_congr fun i hi => hall _ (by omega)) fun _ _ =>
    except_bind_congr (memRead_congr fun i hi => hall _ (by omega)) fun _ _ => rfl

theorem validateDataFile_congr
    (h : ∀ a, DataFileReads r₁.inbuf n a → Memory.read r₁.inbuf a = Memory.read r₂.inbuf a) :
    validateDataFile c r₁ n = validateDataFile c r₂ n := by
  refine ite_congr rfl (fun _ => rfl) fun h23 => except_bind_congr ?_ fun len hlen =>
    ite_congr rfl (fun _ => rfl) fun hn => ?_
  · exact memRead_congr fun i hi => h (17 + i) ⟨by omega, by omega⟩
  have hall := fun a => read_eq_of_dataFileReads (a := a) h hlen (not_not.1 hn)
  refine except_bind_congr (inBytes_congr fun i hi => hall _ (by omega)) fun _ _ =>
    except_bind_congr (memRead_congr fun i hi => hall _ (by omega)) fun _ _ => rfl

theorem zeroFieldsOk_congr
    (h : c.zeroPolicy = .requireZero → ∀ a, a < 16 → Memory.read r₁.inbuf a = Memory.read r₂.inbuf a) :
    zeroFieldsOk c r₁ = zeroFieldsOk c r₂ := by
  unfold zeroFieldsOk
  cases hz : c.zeroPolicy with
  | ignore => rfl
  | requireZero =>
    exact except_bind_congr (memRead_congr fun i hi => h hz _ (by omega)) fun _ _ =>
      except_bind_congr (memRead_congr fun i hi => h hz _ (by omega)) fun _ _ => rfl

theorem decodeControlId_congr (hk : kindClass k = .controlId)
    (h : ∀ a, ArmReads c r₁.inbuf n k a → Memory.read r₁.inbuf a = Memory.read r₂.inbuf a) :
    decodeControlId c r₁ n k = decodeControlId c r₂ n k := by
  have hreads := fun a => armReads_control (c := c) (m := r₁.inbuf) (n := n) (a := a) (controlNeeds_iff.2 (.inl ⟨hk, rfl⟩))
  refine ite_congr rfl (fun hlen => except_bind_congr ?_ fun zeros hzeros =>
    ite_congr rfl (fun htrue => except_bind_congr ?_ fun _ _ => rfl) fun _ => rfl) fun _ => rfl
  · exact zeroFieldsOk_congr fun hz a ha => h a ((hreads a).2 ⟨hlen, .inl ⟨hz, ha⟩⟩)
  · subst htrue
    exact memRead_congr fun i hi => h (17 + i) ((hreads (17 + i)).2
      ⟨hlen, .inr ⟨by omega, by omega, accepted_of_zeroFieldsOk hzeros⟩⟩)

theorem decodeHandshake_congr (hk : kindClass k = .handshake)
    (h : ∀ a, ArmReads c r₁.inbuf n k a → Memory.read r₁.inbuf a = Memory.read r₂.inbuf a) :
    decodeHandshake c r₁ n k = decodeHandshake c r₂ n k := by
  have hreads := fun a => armReads_control (c := c) (m := r₁.inbuf) (n := n) (a := a) (controlNeeds_iff.2 (.inr ⟨hk, rfl⟩))
  refine ite_congr rfl (fun hlen => except_bind_congr ?_ fun _ _ => rfl) fun _ => rfl
  exact zeroFieldsOk_congr fun hz a ha => h a ((hreads a).2 ⟨hlen, .inl ⟨hz, ha⟩⟩)

theorem decodeArm_congr (h : ∀ a, ArmReads c r₁.inbuf n k a → Memory.read r₁.inbuf a = Memory.read r₂.inbuf a) :
    decodeArm c r₁ n k = decodeArm c r₂ n k := by
  unfold decodeArm
  cases hk : kindClass k with
  | dataFile => exact decodeDataFile_congr fun a ha => h a ((armReads_dataFile hk).2 ha)
  | controlId => exact decodeControlId_congr hk h
  | handshake => exact decodeHandshake_congr hk h
  | unknown => rfl

theorem decodeResponse_congr (hlen : r₁.inlen = r₂.inlen)
    (h : ∀ n, r₁.inlen = some n → ∀ a, DecodeReads c r₁.inbuf n a → Memory.read r₁.inbuf a = Memory.read r₂.inbuf a) :
    decodeResponse c r₁ = decodeResponse c r₂ := by
  refine except_bind_congr (by rw [hlen]) fun n hn => ite_congr rfl (fun _ => rfl) fun h17 => ?_
  have h := fun a ha => h n (need_eq_ok.1 hn) a (decodeReads_iff.2 ⟨Nat.not_lt.1 h17, ha⟩)
  refine except_bind_congr (by rw [inByte, inByte, h 16 (.inl rfl)]) fun k hk => ?_
  exact decodeArm_congr fun a ha => h a (.inr ⟨k, need_eq_ok.1 hk, ha⟩)

theorem validateResponse_congr (hlen : r₁.inlen = r₂.inlen)
    (h : ∀ n, r₁.inlen = some n → ∀ a, ValidateReads r₁.inbuf n a → Memory.read r₁.inbuf a = Memory.read r₂.inbuf a) :
    validateResponse c r₁ = validateResponse c r₂ := by
  refine except_bind_congr (by rw [hlen]) fun n hn => ite_congr rfl (fun _ => rfl) fun h17 => ?_
  have h := fun a ha => h n (need_eq_ok.1 hn) a ⟨Nat.not_lt.1 h17, ha⟩
  refine except_bind_congr (by rw [inByte, inByte, h 16 (.inl rfl)]) fun k hk => ?_
  cases hclass : kindClass k with
  | unknown => rfl
  | controlId => rfl
  | handshake => rfl
  | dataFile =>
    exact validateDataFile_congr fun a ha => h a (.inr ⟨k, need_eq_ok.1 hk, kindClass_dataFile.1 hclass, ha⟩)

end

/-- An instruction whose response is the same in two states gives the host the same in both. -/
theorem sameResponse_of_instrResponse {i : Instr} {s t : State}
    (h : instrResponse i s.cfg s.req = instrResponse i t.cfg t.req) : SameResponse (exec i s) (exec i t) := by
  rw [exec_eq, exec_eq, ← h]
  cases instrResponse i s.cfg s.req with
  | ok p => exact .inr ⟨s.completed p, t.completed p, rfl, rfl, rfl⟩
  | error f => exact .inl ⟨f, rfl, rfl⟩

/-- Settles O41: each command's response is a function of the configuration and of what it reads. -/
theorem responseDependsOnListedOperands : Obligations.ResponseDependsOnListedOperands := by
  unfold Obligations.ResponseDependsOnListedOperands
  intro s t hcfg
  refine ⟨fun hlen h => sameResponse_of_instrResponse ?_, fun hlen h => sameResponse_of_instrResponse ?_,
    fun hlen h => sameResponse_of_instrResponse ?_, fun hkind h => sameResponse_of_instrResponse ?_,
    fun hkind h => sameResponse_of_instrResponse ?_, fun i hi => sameResponse_of_instrResponse ?_⟩
  · exact hcfg ▸ crc32Response_congr hlen h
  · exact hcfg ▸ decodeResponse_congr hlen h
  · exact hcfg ▸ validateResponse_congr hlen h
  · exact hcfg ▸ encodeDataResponse_congr hkind h
  · exact encodeControlResponse_congr hkind h
  · rcases hi with rfl | rfl | rfl <;> rfl

end Sys2Proof.Machine
end

section
/-! The grouping of host writes of INBUF bytes (O12): each write of a group within the buffer is one store of its bytes. -/

namespace Sys2Proof.Machine

/-- The state with a string of bytes stored in INBUF (R39). -/
def State.storeInbuf (s : State) (a : Nat) (bs : List Byte) : State :=
  s.withReq { s.req with inbuf := Memory.writeBytes s.req.inbuf a bs }

/-- Two stores side by side are the one store of both strings. -/
theorem State.storeInbuf_append (s : State) (a : Nat) (xs ys : List Byte) :
    s.storeInbuf a (xs ++ ys) = (s.storeInbuf a xs).storeInbuf (a + xs.length) ys := by
  simp [State.storeInbuf, Memory.writeBytes_append, State.withReq]

/-- A group within INBUF that the host writes to an idle live block is stored, and the move is taken (R65). -/
theorem step_writeInbuf {s : State} {a : Nat} {bs : List Byte} {rest : List HostMove}
    (hm : s.hostMoves = .writeInbuf a bs :: rest) (hf : s.faultRecord = none) (hb : s.busy = false)
    (ha : a + bs.length ≤ s.cfg.bufBytes) : step s = .next ((s.withMoves rest).storeInbuf a bs) :=
  step_eq_of_hostMove hm hf (hostWriteInbuf_of_idle (s := s.withMoves rest) hb ha)

/-- Settles O12: the two stores that the groups are come to the one store of their bytes. -/
theorem writeGrouping : Obligations.WriteGrouping := by
  unfold Obligations.WriteGrouping
  intro s a xs ys rest hf hb hlen
  refine ⟨(s.withMoves rest).storeInbuf a (xs ++ ys), step_writeInbuf rfl hf hb hlen, ?_⟩
  rw [List.length_append] at hlen
  have hfirst := step_writeInbuf (s := s.withMoves (.writeInbuf a xs :: .writeInbuf (a + xs.length) ys :: rest))
    rfl hf hb (show a + xs.length ≤ s.cfg.bufBytes by omega)
  rw [run_of_step hfirst, run_one, State.storeInbuf_append]
  exact step_writeInbuf rfl hf hb (show a + xs.length + ys.length ≤ s.cfg.bufBytes by omega)

end Sys2Proof.Machine
end

section
/-! The layout of an encoded data/file frame (O25): a buffer holds a frame exactly when it holds each field at its offset
(R83), and a field's bytes are its value's bytes, most significant first (R62, R90). -/

namespace Sys2Proof.Machine

theorem Memory.bufferHolds_ofBytes (a : Nat) (bs : List Byte) : BufferHolds (Memory.ofBytes a bs) a bs := by
  intro i _
  simp [Memory.read_ofBytes]

/-- Byte j of a word, counted from the least significant. -/
theorem ofNat_div_pow_eq_extractLsb' {w : Nat} (v : BitVec w) (j : Nat) :
    BitVec.ofNat 8 (v.toNat / 256 ^ j) = v.extractLsb' (8 * j) 8 := by
  rw [BitVec.extractLsb', Nat.shiftRight_eq_div_pow, Nat.pow_mul]

/-- Byte i of a word that a buffer holds big-endian in n bytes (R62). -/
theorem BufferHolds.read_bytesBE {w : Nat} {v : BitVec w} {m : Memory} {a n i : Nat}
    (h : BufferHolds m a (bytesBE n v.toNat)) (hi : i < n) :
    Memory.read m (a + i) = some (v.extractLsb' (8 * (n - 1 - i)) 8) := by
  have hlen : i < (bytesBE n v.toNat).length := by simpa using hi
  rw [h i hlen, List.getElem?_eq_getElem hlen, bytesBE_getElem, ofNat_div_pow_eq_extractLsb']

/-- The covered bytes of a data/file frame, field by field at the offsets of R83. -/
theorem bufferHolds_dataFrameBody {m : Memory} {seq next : Id} {k : Byte} {p : List Byte} :
    BufferHolds m 0 (dataFrameBody seq next k p) ↔
      BufferHolds m 0 (bytesBE 8 seq.toNat) ∧ BufferHolds m 8 (bytesBE 8 next.toNat) ∧ Memory.read m 16 = some k ∧
      BufferHolds m 17 (bytesBE 2 p.length) ∧ BufferHolds m 19 p := by
  simp [dataFrameBody, bufferHolds_append, bufferHolds_cons]

/-- A frame without injection is its covered bytes and, after them, their CRC (R83, R153). -/
theorem bufferHolds_dataFrame_clean {m : Memory} {c : Config} {seq next : Id} {k : Byte} {p : List Byte} :
    BufferHolds m 0 (dataFrame c seq next k p false) ↔
      BufferHolds m 0 (dataFrameBody seq next k p) ∧
      BufferHolds m (19 + p.length) (bytesBE 4 (crc32 c (dataFrameBody seq next k p)).toNat) := by
  simp [dataFrame, bufferHolds_append]

/-- The two bytes of a payloadLength (R83). -/
theorem bufferHolds_payloadLength {m : Memory} {a n : Nat} :
    BufferHolds m a (bytesBE 2 n) ↔
      Memory.read m a = some (BitVec.ofNat 8 (n / 256)) ∧ Memory.read m (a + 1) = some (BitVec.ofNat 8 (n % 256)) := by
  have hlow : BitVec.ofNat 8 (n % 256) = BitVec.ofNat 8 n := BitVec.eq_of_toNat_eq (by simp)
  simp [bytesBE, bufferHolds_cons, hlow]

@[simp] theorem frameOut_outbuf (frame : List Byte) (len : Nat) : (frameOut frame len).outbuf = Memory.ofBytes 0 frame := rfl

/-- ENCODE_DATA whose operands pass every check of R112 completes with the frame (R111). -/
theorem exec_encodeData {s : State} {k : Byte} {seq next : Id} {p : List Byte} {inject : Bool} (hk : s.req.kind = some k)
    (hkind : k = 0x00#8 ∨ k = 0x02#8) (hp : HasInput s p) (hlen : p.length ≤ 65535) (hfit : 23 + p.length ≤ s.cfg.bufBytes)
    (hseq : s.req.seq = some seq) (hnext : s.req.next = some next) (hinject : s.req.inject = some inject) :
    exec .encodeData s = .next (s.completed (frameOut (dataFrame s.cfg seq next k p inject) (23 + p.length))) := by
  obtain ⟨hinlen, hholds⟩ := hp
  have hresp : encodeDataResponse s.cfg s.req = .ok (frameOut (dataFrame s.cfg seq next k p inject) (23 + p.length)) := by
    simp [encodeDataResponse, hk, kindClass_dataFile.2 hkind, hinlen, Nat.not_lt.2 hlen, Nat.not_lt.2 hfit, hseq, hnext,
      inBytes_of_holds hholds, hinject]
  exact exec_eq_next.2 ⟨_, hresp, rfl⟩

/-- Settles O25: OUTBUF holds the frame, so it holds each field at its offset, and ⊥ past the frame's end. -/
theorem encodedDataFrameLayout : Obligations.EncodedDataFrameLayout := by
  unfold Obligations.EncodedDataFrameLayout
  intro s k seq next p hk hkind hp hlen hfit hseq hnext hinject
  have hout := Memory.bufferHolds_ofBytes 0 (dataFrame s.cfg seq next k p false)
  obtain ⟨hbody, hcrc⟩ := bufferHolds_dataFrame_clean.1 hout
  obtain ⟨hseqField, hnextField, hkindField, hlenField, hpayload⟩ := bufferHolds_dataFrameBody.1 hbody
  obtain ⟨hlenHigh, hlenLow⟩ := bufferHolds_payloadLength.1 hlenField
  refine ⟨_, exec_encodeData hk hkind hp hlen hfit hseq hnext hinject, rfl, fun i hi => ?_,
    fun i hi => hnextField.read_bytesBE hi, hkindField, hlenHigh, hlenLow, hpayload,
    ⟨dataFrameBody seq next k p, dataFrameBody_length seq next k p, hbody, fun i hi => hcrc.read_bytesBE hi⟩,
    fun a ha => ?_⟩
  · simpa using hseqField.read_bytesBE hi
  · simpa using ha

end Sys2Proof.Machine
end

section
/-! The encoder against the two opcode maps (O1, O2) and the reserved command codes (O35): each well-formed instruction is the row
that its code is decoded to. -/

namespace Sys2Proof

theorem frameUnknown_wf_iff {k : Byte} : (Instr.frameUnknown k).wf = true ↔ k ∉ knownKinds := by
  simp [Instr.wf]

/-- R88: a kind byte that is none of the six codes has the row FRAME_UNKNOWN. -/
theorem decodeKind_of_unknown {k : Byte} (h : k ∉ knownKinds) : decodeKind k = .frameUnknown k := by
  simp_all [decodeKind, knownKinds]

/-- The decoder inverts the encoder (R80, R82, R86, R88): only FRAME_UNKNOWN carries data, and its byte reaches that row. -/
theorem decode_encode {i : Instr} (hwf : i.wf = true) (rest : List Byte) :
    decode (encode i).1 ((encode i).2 :: rest) = .ok (i, rest) := by
  cases i with
  | frameUnknown k => simp [encode, decodeKind_of_unknown (frameUnknown_wf_iff.1 hwf)]
  | _ => rfl

/-- Settles O2: the decoder inverts the encoder. -/
theorem decodeOfEncode : Obligations.DecodeOfEncode := by
  unfold Obligations.DecodeOfEncode
  intro i rest hwf
  exact decode_encode hwf rest

/-- Settles O1: each of the spec's words is the code of its row. -/
theorem specWordsDecode : Obligations.SpecWordsDecode := by
  unfold Obligations.SpecWordsDecode
  have hrow (i : Instr) (hwf : i.wf = true) := decode_encode hwf []
  exact ⟨hrow .crc32 rfl, hrow .encodeData rfl, hrow .encodeControl rfl, hrow .decode rfl, hrow .validate rfl, hrow .rsv5 rfl,
    hrow .rsv6 rfl, hrow .rsv7 rfl, hrow .frameData rfl, hrow .frameRequest rfl, hrow .frameFile rfl, hrow .frameSuccess rfl,
    hrow .frameHandshakeAck rfl, hrow .frameHandshakeRequest rfl, hrow (.frameUnknown 0x03#8) rfl,
    hrow (.frameUnknown 0xC9#8) rfl⟩

theorem decodeCommand_reserved {c : Code} (h : c = 5#3 ∨ c = 6#3 ∨ c = 7#3) :
    decodeCommand c = .rsv5 ∨ decodeCommand c = .rsv6 ∨ decodeCommand c = .rsv7 := by
  revert c
  decide

end Sys2Proof

namespace Sys2Proof.Machine

/-- R82: a reserved code completes in every state, since it reads no operand. -/
theorem exec_reserved {i : Instr} (h : i = .rsv5 ∨ i = .rsv6 ∨ i = .rsv7) (s : State) :
    exec i s = .next (s.completed (Response.finish statusIllegalCommand)) := by
  rcases h with rfl | rfl | rfl
  all_goals rfl

/-- Settles O35: the reserved rows answer ILLEGAL_COMMAND, and the map's other five codes are the commands. -/
theorem reservedCodesIllegal : Obligations.ReservedCodesIllegal := by
  unfold Obligations.ReservedCodesIllegal
  exact ⟨fun s c hc => exec_reserved (decodeCommand_reserved hc) s, fun s i hi => exec_reserved hi s, by decide⟩

end Sys2Proof.Machine
end

section
/-! DECODE and the rows of the kind map (O14, O27, O30): a row's response is that of its kind byte's arm, and the arms of a
data/file frame and of an unknown kind are answered from the datagram. -/

namespace Sys2Proof.Machine

/-- Every row of the kind map runs DECODE past the read of byte 16 (R121, log entries 11, 18). -/
theorem instrResponse_of_kind_row {i : Instr} (h : (encode i).1 = .kind) (c : Config) (r : Request) :
    instrResponse i c r = frameResponse (encode i).2 c r := by
  cases i
  case frameData | frameRequest | frameFile | frameSuccess | frameHandshakeAck | frameHandshakeRequest | frameUnknown => rfl
  all_goals exact absurd h (by decide)

/-- Check (1) of DECODE (R121). -/
theorem frameResponse_of_short {k : Byte} {c : Config} {r : Request} {n : Nat} (hn : r.inlen = some n) (h17 : n < 17) :
    frameResponse k c r = .ok (Response.finish statusMalformed) := by
  simp [frameResponse, hn, h17]

theorem frameResponse_of_inlen_none {k : Byte} {c : Config} {r : Request} (hn : r.inlen = none) :
    frameResponse k c r = .error (.unwrittenOperand .inlen) := by
  simp [frameResponse, hn]

/-- DECODE of a datagram whose byte 16 is written is the row that this byte has, at any INLEN (R86, R121). -/
theorem exec_decode_eq_row {s : State} {k : Byte} (h : Memory.read s.req.inbuf 16 = some k) :
    exec .decode s = exec (decodeKind k) s := by
  rw [exec_eq, exec_eq, instrResponse_decodeKind]
  exact congrArg (completeWith s) (decodeResponse_eq_frameResponse h)

/-- Settles O14: DECODE is the row of its kind byte, and each row answers check (1) and the read of INLEN before its arm. -/
theorem decodeRunsFrameKind : Obligations.DecodeRunsFrameKind := by
  unfold Obligations.DecodeRunsFrameKind
  intro s
  refine ⟨fun k i h16 hdec => ?_, fun i hi => ⟨fun n hn h17 => ?_, fun hn => ?_⟩⟩
  · obtain rfl : decodeKind k = i := by simpa using hdec
    exact exec_decode_eq_row h16
  · exact exec_eq_next.2 ⟨_, (instrResponse_of_kind_row hi _ _).trans (frameResponse_of_short hn h17), rfl⟩
  · exact exec_eq_fault.2 ((instrResponse_of_kind_row hi _ _).trans (frameResponse_of_inlen_none hn))

/-- The DF arm (R83, R121) of a frame whose payloadLength fits the datagram, whatever its checksum. -/
theorem decodeArm_dataFile {c : Config} {r : Request} {k : Byte} {seq next : Id} {p : List Byte} {checksum : Crc}
    (hk : kindClass k = .dataFile) (hp : p.length ≤ 65535) (hbody : BufferHolds r.inbuf 0 (dataFrameBody seq next k p))
    (hsum : BufferHolds r.inbuf (19 + p.length) (bytesBE 4 checksum.toNat)) :
    decodeArm c r (23 + p.length) k = .ok { frameOut p p.length with
      dKind := some k, dSeq := some seq, dNext := some next, dLen := some (BitVec.ofNat 16 p.length),
      dChecksum := some checksum } := by
  obtain ⟨hseq, hnext, -, hlen, hpayload⟩ := bufferHolds_dataFrameBody.1 hbody
  have hlenRead : memRead r 17 2 = .ok p.length := by
    simpa [beNat_bytesBE (show p.length < 256 ^ 2 by omega)] using memRead_of_holds hlen
  have hsumRead : memRead r (19 + p.length) 4 = .ok checksum.toNat := by
    simpa [beNat_bytesBE_crc] using memRead_of_holds hsum
  have hfits : 19 + p.length + 4 = 23 + p.length := by omega
  simp [decodeArm, hk, decodeDataFile, hlenRead, hfits, memRead_of_holds_id hseq, memRead_of_holds_id hnext,
    inBytes_of_holds hpayload, hsumRead]

/-- Settles O27: INBUF holds each field at its offset, so the DF arm of the kind byte answers with the fields. -/
theorem decodeDataFileFields : Obligations.DecodeDataFileFields := by
  unfold Obligations.DecodeDataFileFields
  intro s i k seq next p checksum hk hi hp hin
  obtain ⟨hn, hholds⟩ : HasInput s (dataFrameBody seq next k p ++ bytesBE 4 checksum.toNat) := hin
  obtain ⟨hbody, hsum⟩ := bufferHolds_append.1 hholds
  have hn : s.req.inlen = some (23 + p.length) := by
    rw [hn, List.length_append, dataFrameBody_length, bytesBE_length]
    congr 1
    omega
  have hsum : BufferHolds s.req.inbuf (19 + p.length) (bytesBE 4 checksum.toNat) := by simpa using hsum
  obtain ⟨-, -, h16, -, -⟩ := bufferHolds_dataFrameBody.1 hbody
  rw [exec_of_kind (decode_or_row_of_kind hi) hn (by omega) h16, decodeArm_dataFile (kindClass_dataFile.2 hk) hp hbody hsum]
  rfl

/-- Check (2) of DECODE (R121, R183): the arm of an unknown kind reads nothing. -/
theorem decodeArm_unknown {k : Byte} (hk : kindClass k = .unknown) (c : Config) (r : Request) (n : Nat) :
    decodeArm c r n k = .ok (Response.finish statusUnknownKind) := by
  simp [decodeArm, hk]

/-- Settles O30: FRAME_UNKNOWN is the row of the kind byte, whose arm is check (2). -/
theorem unknownKindDropped : Obligations.UnknownKindDropped := by
  unfold Obligations.UnknownKindDropped
  intro s i k n hwf hi hn h17 h16
  have hk : k ∉ knownKinds := frameUnknown_wf_iff.1 hwf
  rw [← decodeKind_of_unknown hk] at hi
  rw [exec_of_kind hi hn h17 h16, decodeArm_unknown (kindClass_unknown.2 hk)]
  rfl

end Sys2Proof.Machine
end

section
/-! A command line with `in="…"` (O18): its moves place the input and issue the command, and CRC32 completes with the CRC of the
input. -/

namespace Sys2Proof.Machine

theorem hasInput_withInput (s : State) (bs : List Byte) : HasInput (s.withReq (s.req.withInput bs)) bs :=
  ⟨rfl, Memory.bufferHolds_writeBytes s.req.inbuf 0 bs⟩

/-- The two moves of `in="…"` on an idle live block place its bytes and their number (R94). -/
theorem run_inputMoves {s : State} {bs : List Byte} {rest : List HostMove} (n : Nat)
    (hm : s.hostMoves = inputMoves (some bs) ++ rest) (hf : s.faultRecord = none) (hb : s.busy = false)
    (hlen : bs.length ≤ s.cfg.bufBytes) : run (n + 2) s = run n ((s.withMoves rest).withReq (s.req.withInput bs)) := by
  have hbytes : step s = .next ((s.withMoves (.writeInlen bs.length :: rest)).storeInbuf 0 bs) :=
    step_writeInbuf hm hf hb (by omega)
  have hinlen : step ((s.withMoves (.writeInlen bs.length :: rest)).storeInbuf 0 bs) =
      .next ((s.withMoves rest).withReq (s.req.withInput bs)) :=
    step_eq_of_hostMove rfl hf (hostWriteInlen_of_idle hb hlen)
  rw [run_of_step hbytes, run_of_step hinlen]

/-- A command line with `in="…"` and code c, from an idle live block: two moves, the issue, and the completion (R94). -/
theorem run_inputLine {s : State} {bs : List Byte} {c : Code} (hm : s.hostMoves = inputMoves (some bs) ++ [.writeCmd c])
    (hf : s.faultRecord = none) (hb : s.busy = false) (hlen : bs.length ≤ s.cfg.bufBytes) :
    run 4 s = exec (decodeCommand c) (((s.withMoves []).withReq (s.req.withInput bs)).issued c) := by
  have hissue : step ((s.withMoves [.writeCmd c]).withReq (s.req.withInput bs)) =
      .next (((s.withMoves []).withReq (s.req.withInput bs)).issued c) :=
    step_eq_of_hostMove rfl hf (hostIssue_of_idle (s := (s.withMoves []).withReq (s.req.withInput bs)) hb c)
  rw [run_inputMoves 2 hm hf hb hlen, run_of_step hissue, run_one]
  exact step_pending rfl hf rfl rfl

/-- CRC32 of a written input (R155). -/
theorem exec_crc32 {s : State} {bs : List Byte} (h : HasInput s bs) :
    exec .crc32 s = .next (s.completed { Response.finish statusOk with crc := some (crc32 s.cfg bs) }) := by
  obtain ⟨hn, hholds⟩ := h
  have hresp : crc32Response s.cfg s.req = .ok { Response.finish statusOk with crc := some (crc32 s.cfg bs) } := by
    simp [crc32Response, hn, inBytes_of_holds hholds]
  exact exec_eq_next.2 ⟨_, hresp, rfl⟩

/-- Settles O18: the line ends with CRC32 of the input that it has placed. -/
theorem commandLineRuns : Obligations.CommandLineRuns := by
  unfold Obligations.CommandLineRuns
  intro s bs hb hf hlen hm
  have hinput : HasInput (((s.withMoves []).withReq (s.req.withInput bs)).issued 0#3) bs := hasInput_withInput s bs
  exact ⟨_, (run_inputLine hm hf hb hlen).trans (exec_crc32 hinput), rfl, rfl, rfl, rfl⟩

end Sys2Proof.Machine
end

section
/-! The frames that ENCODE_DATA builds (O23, O43): a frame is its covered bytes and the four bytes of the checksum it stores,
which injection increments (R163), so DECODE reads each field back. -/

namespace Sys2Proof.Machine

/-! ### The stored checksum -/

/-- The checksum that ENCODE_DATA places (R111, R163): the CRC, or the CRC with its low byte incremented. -/
def storedChecksum (inject : Bool) (crc : Crc) : Crc := if inject then bumpedChecksum crc else crc

@[simp] theorem storedChecksum_false (crc : Crc) : storedChecksum false crc = crc := rfl
@[simp] theorem storedChecksum_true (crc : Crc) : storedChecksum true crc = bumpedChecksum crc := rfl

/-- The three high bytes of a checksum survive the increment (R163). -/
theorem bumpedChecksum_ushiftRight (crc : Crc) : bumpedChecksum crc >>> 8 = crc >>> 8 := by
  have hhigh : (crc >>> 8) &&& 0xFFFFFF#32 = crc >>> 8 := by
    apply BitVec.eq_of_toNat_eq
    have hlt := crc.isLt
    have hmod := Nat.and_two_pow_sub_one_eq_mod (crc >>> 8).toNat 24
    simp only [BitVec.toNat_ushiftRight, Nat.shiftRight_eq_div_pow, BitVec.toNat_and, BitVec.toNat_ofNat] at hmod ⊢
    norm_num at hmod ⊢
    omega
  simp [bumpedChecksum, BitVec.ushiftRight_or_distrib, BitVec.ushiftRight_and_distrib, hhigh]

/-- The low byte of a checksum is incremented modulo 256 (R163). -/
theorem bumpedChecksum_setWidth (crc : Crc) : (bumpedChecksum crc).setWidth 8 = crc.setWidth 8 + 1#8 := by
  have hbyte (b : Byte) : b &&& 255#8 = b := BitVec.and_allOnes
  simp [bumpedChecksum, BitVec.setWidth_or, BitVec.setWidth_and, BitVec.setWidth_add, hbyte]

/-- The bytes of a checksum, its low byte apart. -/
theorem bytesBE_four_crc (crc : Crc) : bytesBE 4 crc.toNat = bytesBE 3 (crc >>> 8).toNat ++ [crc.setWidth 8] := by
  rw [bytesBE_four, BitVec.toNat_ushiftRight, Nat.shiftRight_eq_div_pow, ← BitVec.ofNat_toNat]

/-- Injection into the checksum's bytes is the increment of its low byte (R163). -/
theorem bumpLast_bytesBE_crc (crc : Crc) : bumpLast (bytesBE 4 crc.toNat) = bytesBE 4 (bumpedChecksum crc).toNat := by
  rw [bytesBE_four_crc, bumpLast_append_singleton, bytesBE_four_crc, bumpedChecksum_ushiftRight, bumpedChecksum_setWidth]

/-- A data/file frame is its covered bytes and its stored checksum (R83, R153, R163). -/
theorem dataFrame_eq_stored (c : Config) (seq next : Id) (k : Byte) (p : List Byte) (inject : Bool) :
    dataFrame c seq next k p inject = dataFrameBody seq next k p ++
      bytesBE 4 (storedChecksum inject (crc32 c (dataFrameBody seq next k p))).toNat := by
  cases inject with
  | false => rfl
  | true =>
    have hne : bytesBE 4 (crc32 c (dataFrameBody seq next k p)).toNat ≠ [] := by simp [bytesBE]
    simp [dataFrame, bumpLast_append hne, bumpLast_bytesBE_crc]

/-! ### The frames of ENCODE_DATA -/

/-- An encoder that answers `frameOut` of a frame has that frame in OUTBUF[0 .. OUTLEN), and no other. -/
theorem frameOut_holds_iff {frame out : List Byte} {len : Nat} (hlen : len = frame.length) :
    ((frameOut frame len).outlen = some out.length ∧ (frameOut frame len).outbuf = Memory.ofBytes 0 out) ↔ out = frame := by
  constructor
  · rintro ⟨-, hout⟩
    exact (Memory.ofBytes_injective hout).symm
  · rintro rfl
    exact ⟨congrArg some hlen, rfl⟩

/-- ENCODE_DATA completes with a frame exactly when its operands pass every check and build it (R111, R112). -/
theorem encodesData_iff {e : State} {frame : List Byte} :
    EncodesData e frame ↔ ∃ k seq next p inject, e.req.kind = some k ∧ kindClass k = .dataFile ∧ HasInput e p ∧
      p.length ≤ 65535 ∧ 23 + p.length ≤ e.cfg.bufBytes ∧ e.req.seq = some seq ∧ e.req.next = some next ∧
      e.req.inject = some inject ∧ frame = dataFrame e.cfg seq next k p inject := by
  constructor
  · rintro ⟨t, hexec, hstatus, hout⟩
    obtain ⟨resp, hresp, rfl⟩ := exec_eq_next.1 hexec
    rcases encodeDataResponse_ok hresp with
      rfl | ⟨k, seq, next, p, inject, hk, hclass, hn, hmax, hfit, hseq, hnext, hp, hinject, rfl⟩
    · exact absurd hstatus (by simp [statusOk, statusBadOperand])
    · exact ⟨k, seq, next, p, inject, hk, hclass, ⟨hn, hp⟩, hmax, hfit, hseq, hnext, hinject,
        (frameOut_holds_iff (by simp)).1 hout⟩
  · rintro ⟨k, seq, next, p, inject, hk, hclass, hp, hmax, hfit, hseq, hnext, hinject, rfl⟩
    exact ⟨_, exec_encodeData hk (kindClass_dataFile.1 hclass) hp hmax hfit hseq hnext hinject, rfl,
      (frameOut_holds_iff (by simp)).2 rfl⟩

/-- What DECODE writes for a data/file frame (R121). -/
def dataDecoded (seq next : Id) (k : Byte) (p : List Byte) (checksum : Crc) : Response :=
  { frameOut p p.length with
    dKind := some k, dSeq := some seq, dNext := some next, dLen := some (BitVec.ofNat 16 p.length),
    dChecksum := some checksum }

/-- DECODE of a data/file frame, whatever its checksum (R121). -/
theorem exec_decode_dataFile {s : State} {k : Byte} {seq next : Id} {p : List Byte} {checksum : Crc}
    (hk : kindClass k = .dataFile) (hp : p.length ≤ 65535)
    (hin : HasInput s (dataFrameBody seq next k p ++ bytesBE 4 checksum.toNat)) :
    exec .decode s = .next (s.completed (dataDecoded seq next k p checksum)) :=
  decodeDataFileFields s .decode k seq next p checksum (kindClass_dataFile.1 hk) (.inl rfl) hp hin

/-- The covered bytes of a frame, cut at its checksum. -/
theorem take_dataFrameBody (seq next : Id) (k : Byte) (p rest : List Byte) :
    (dataFrameBody seq next k p ++ rest).take (19 + p.length) = dataFrameBody seq next k p :=
  List.take_left' (dataFrameBody_length seq next k p)

/-- Settles O43: the frame is its covered bytes and its stored checksum, and DECODE answers with the fields of such a frame. -/
theorem dataRoundTrip : Obligations.DataRoundTrip := by
  unfold Obligations.DataRoundTrip
  intro e s frame henc hin
  obtain ⟨k, seq, next, p, inject, hk, hclass, hp, hmax, -, hseq, hnext, hinject, rfl⟩ := encodesData_iff.1 henc
  rw [dataFrame_eq_stored] at hin ⊢
  have hbody := take_dataFrameBody seq next k p
    (bytesBE 4 (storedChecksum inject (crc32 e.cfg (dataFrameBody seq next k p))).toNat)
  refine ⟨_, p, exec_decode_dataFile hclass hmax hin, hp, rfl, hk.symm, hseq.symm, hnext.symm, ?_, rfl, rfl,
    fun h => ?_, fun h => ?_⟩
  · have hlen : p.length % 65536 = p.length := Nat.mod_eq_of_lt (by omega)
    simp [dataDecoded, hlen]
  · obtain rfl : inject = false := by simpa [hinject] using h
    rw [hbody]
    rfl
  · obtain rfl : inject = true := by simpa [hinject] using h
    rw [hbody]
    rfl

/-! ### ENCODE_DATA -/

section
variable {s : State} {k : Byte} {n : Nat}

/-- The first check of R112: the kind. -/
theorem exec_encodeData_of_bad_kind (hk : s.req.kind = some k) (hclass : kindClass k ≠ .dataFile) :
    exec .encodeData s = .next (s.completed (Response.finish statusBadOperand)) := by
  have hresp : encodeDataResponse s.cfg s.req = .ok (Response.finish statusBadOperand) := by
    simp [encodeDataResponse, hk, hclass]
  exact exec_eq_next.2 ⟨_, hresp, rfl⟩

/-- The two checks of the length (R112), whose status is that of the check of the kind. -/
theorem exec_encodeData_of_bad_length (hk : s.req.kind = some k) (hn : s.req.inlen = some n)
    (hbad : 65535 < n ∨ s.cfg.bufBytes < 23 + n) :
    exec .encodeData s = .next (s.completed (Response.finish statusBadOperand)) := by
  have hresp : encodeDataResponse s.cfg s.req = .ok (Response.finish statusBadOperand) := by
    by_cases hmax : 65535 < n
    · simp [encodeDataResponse, hk, hn, hmax]
    · simp [encodeDataResponse, hk, hn, hmax, hbad.resolve_left hmax]
  exact exec_eq_next.2 ⟨_, hresp, rfl⟩

/-- Past its checks ENCODE_DATA answers only where every operand that it then reads is written (R112). -/
theorem encodeDataResponse_written {c : Config} {r : Request} {resp : Response} (hk : r.kind = some k)
    (hclass : kindClass k = .dataFile) (hn : r.inlen = some n) (hmax : n ≤ 65535) (hfit : 23 + n ≤ c.bufBytes)
    (h : encodeDataResponse c r = .ok resp) :
    r.seq ≠ none ∧ r.next ≠ none ∧ r.inject ≠ none ∧ ∀ a, a < n → Memory.read r.inbuf a ≠ none := by
  simp only [encodeDataResponse, hk, hclass, hn, Nat.not_lt.2 hmax, Nat.not_lt.2 hfit, need_some, except_bind_ok, ne_eq,
    not_true, if_false, except_bind_eq_ok, need_eq_ok] at h
  obtain ⟨seq, hseq, next, hnext, p, hp, inject, hinject, -⟩ := h
  exact ⟨by simp [hseq], by simp [hnext], by simp [hinject], fun a ha => inBytes_written hp (by omega) (by omega)⟩

/-- Past its checks ENCODE_DATA faults where an operand that it then reads is ⊥, and names such a one (R112). -/
theorem exec_encodeData_fault (hk : s.req.kind = some k) (hclass : kindClass k = .dataFile) (hn : s.req.inlen = some n)
    (hmax : n ≤ 65535) (hfit : 23 + n ≤ s.cfg.bufBytes)
    (hnone : s.req.seq = none ∨ s.req.next = none ∨ s.req.inject = none ∨ ∃ a, a < n ∧ Memory.read s.req.inbuf a = none) :
    ∃ o, exec .encodeData s = .fault (.unwrittenOperand o) ∧ operandUnwritten s.req o := by
  cases hresp : encodeDataResponse s.cfg s.req with
  | ok resp =>
    obtain ⟨hseq, hnext, hinject, hbytes⟩ := encodeDataResponse_written hk hclass hn hmax hfit hresp
    rcases hnone with h | h | h | ⟨a, ha, h⟩
    · exact absurd h hseq
    · exact absurd h hnext
    · exact absurd h hinject
    · exact absurd h (hbytes a ha)
  | error f =>
    obtain ⟨o, rfl, ho⟩ := encodeDataResponse_faults s.cfg s.req f hresp
    exact ⟨o, exec_eq_fault.2 hresp, ho⟩

end

/-- Settles O23: the checks in their order, the frame of operands that pass them, and the faults. -/
theorem encodeDataSemantics : Obligations.EncodeDataSemantics := by
  unfold Obligations.EncodeDataSemantics
  intro s
  refine ⟨fun k hk h0 h2 => ?_, fun k n hk _ hn hbad => ?_,
    fun k seq next p inject hk hkind hp hmax hfit hseq hnext hinject => ?_, fun hk => exec_eq_fault.2 ?_,
    fun k hk hkind hn => exec_eq_fault.2 ?_, fun k n hk hkind hn hmax hfit hnone => ?_⟩
  · exact exec_encodeData_of_bad_kind hk (by simp [kindClass_dataFile, h0, h2])
  · exact exec_encodeData_of_bad_length hk hn hbad
  · rw [exec_encodeData hk hkind hp hmax hfit hseq hnext hinject, dataFrame_eq]
    rfl
  · simp [instrResponse, encodeDataResponse, hk]
  · simp [instrResponse, encodeDataResponse, hk, kindClass_dataFile.2 hkind, hn]
  · exact exec_encodeData_fault hk (kindClass_dataFile.2 hkind) hn hmax hfit hnone

end Sys2Proof.Machine
end

section
/-! The frames that ENCODE_CONTROL builds (O26, O44): the zero fields, the kind and, for REQUEST and SUCCESS, requestedID, which is
what DECODE reads under either value of both policies. -/

namespace Sys2Proof.Machine

/-- The zero fields and the kind (R84, R85). -/
theorem controlHeader_eq (k : Byte) : controlHeader k = List.replicate 16 0#8 ++ [k] := rfl

/-- The fields of a control frame's header, at the offsets of R84 and R85. -/
theorem bufferHolds_controlHeader {m : Memory} {k : Byte} :
    BufferHolds m 0 (controlHeader k) ↔ BufferHolds m 0 (List.replicate 16 0#8) ∧ Memory.read m 16 = some k := by
  rw [controlHeader_eq, bufferHolds_append, bufferHolds_cons]
  simp

/-- The fields of a CF-R frame, at the offsets of R84. -/
theorem bufferHolds_controlIdFrame {m : Memory} {k : Byte} {id : Id} :
    BufferHolds m 0 (controlIdFrame k id) ↔ BufferHolds m 0 (controlHeader k) ∧ BufferHolds m 17 (bytesBE 8 id.toNat) := by
  rw [controlIdFrame, bufferHolds_append]
  simp

/-- Either length policy accepts the length that a kind needs (R11). -/
theorem lenPolicy_accepts_needed (c : Config) (needed : Nat) :
    (c.lenPolicy = .exact ∧ needed = needed) ∨ (c.lenPolicy = .atLeast ∧ needed ≤ needed) := by
  cases c.lenPolicy <;> simp

/-! ### ENCODE_CONTROL -/

section
variable {s : State} {k : Byte}

/-- REQUEST and SUCCESS (R116). -/
theorem exec_encodeControl_id {id : Id} (hk : s.req.kind = some k) (hclass : kindClass k = .controlId)
    (hid : s.req.reqid = some id) : exec .encodeControl s = .next (s.completed (frameOut (controlIdFrame k id) 25)) := by
  have hresp : encodeControlResponse s.req = .ok (frameOut (controlIdFrame k id) 25) := by
    simp [encodeControlResponse, hk, hclass, hid]
  exact exec_eq_next.2 ⟨_, hresp, rfl⟩

/-- The handshake kinds (R116). -/
theorem exec_encodeControl_handshake (hk : s.req.kind = some k) (hclass : kindClass k = .handshake) :
    exec .encodeControl s = .next (s.completed (frameOut (controlHeader k) 17)) := by
  have hresp : encodeControlResponse s.req = .ok (frameOut (controlHeader k) 17) := by
    simp [encodeControlResponse, hk, hclass]
  exact exec_eq_next.2 ⟨_, hresp, rfl⟩

/-- Every other kind (R116). -/
theorem exec_encodeControl_of_bad_kind (hk : s.req.kind = some k) (hid : kindClass k ≠ .controlId)
    (hhs : kindClass k ≠ .handshake) :
    exec .encodeControl s = .next (s.completed (Response.finish statusBadOperand)) := by
  have hresp : encodeControlResponse s.req = .ok (Response.finish statusBadOperand) := by
    cases hclass : kindClass k with
    | controlId => exact absurd hclass hid
    | handshake => exact absurd hclass hhs
    | dataFile => simp [encodeControlResponse, hk, hclass]
    | unknown => simp [encodeControlResponse, hk, hclass]
  exact exec_eq_next.2 ⟨_, hresp, rfl⟩

end

/-- ENCODE_CONTROL completes with a frame exactly when its kind is a control kind and the frame is that kind's (R116). -/
theorem encodesControl_iff {e : State} {frame : List Byte} :
    EncodesControl e frame ↔
      (∃ k id, e.req.kind = some k ∧ kindClass k = .controlId ∧ e.req.reqid = some id ∧ frame = controlIdFrame k id) ∨
      (∃ k, e.req.kind = some k ∧ kindClass k = .handshake ∧ frame = controlHeader k) := by
  constructor
  · rintro ⟨t, hexec, hstatus, hout⟩
    obtain ⟨resp, hresp, rfl⟩ := exec_eq_next.1 hexec
    rcases encodeControlResponse_ok hresp with rfl | ⟨k, id, hk, hclass, hid, rfl⟩ | ⟨k, hk, hclass, rfl⟩
    · exact absurd hstatus (by simp [statusOk, statusBadOperand])
    · exact .inl ⟨k, id, hk, hclass, hid, (frameOut_holds_iff (by simp)).1 hout⟩
    · exact .inr ⟨k, hk, hclass, (frameOut_holds_iff (by simp)).1 hout⟩
  · rintro (⟨k, id, hk, hclass, hid, rfl⟩ | ⟨k, hk, hclass, rfl⟩)
    · exact ⟨_, exec_encodeControl_id hk hclass hid, rfl, (frameOut_holds_iff (by simp)).2 rfl⟩
    · exact ⟨_, exec_encodeControl_handshake hk hclass, rfl, (frameOut_holds_iff (by simp)).2 rfl⟩

/-- DECODE of a CF-R frame, under every policy (R121). -/
theorem exec_decode_controlIdFrame {s : State} {k : Byte} {id : Id} (hclass : kindClass k = .controlId)
    (hin : HasInput s (controlIdFrame k id)) :
    exec .decode s = .next (s.completed (controlDecoded k (some id))) := by
  obtain ⟨hn, hholds⟩ := hin
  obtain ⟨hheader, hid⟩ := bufferHolds_controlIdFrame.1 hholds
  obtain ⟨hzeros, h16⟩ := bufferHolds_controlHeader.1 hheader
  rw [controlIdFrame_length] at hn
  exact decodeControlIdFields s .decode k id 25 (kindClass_controlId.1 hclass) (.inl rfl) hn
    (lenPolicy_accepts_needed s.cfg 25) (.inr hzeros) h16 hid

/-- DECODE of a CF-H frame, under every policy (R121). -/
theorem exec_decode_controlHeader {s : State} {k : Byte} (hclass : kindClass k = .handshake)
    (hin : HasInput s (controlHeader k)) : exec .decode s = .next (s.completed (controlDecoded k none)) := by
  obtain ⟨hn, hholds⟩ := hin
  obtain ⟨hzeros, h16⟩ := bufferHolds_controlHeader.1 hholds
  rw [controlHeader_length] at hn
  exact decodeHandshakeFields s .decode k 17 (kindClass_handshake.1 hclass) (.inl rfl) hn
    (lenPolicy_accepts_needed s.cfg 17) (.inr hzeros) h16

/-- Settles O44: DECODE of each of the two control frames. -/
theorem controlRoundTrip : Obligations.ControlRoundTrip := by
  unfold Obligations.ControlRoundTrip
  intro e s frame henc hin
  rcases encodesControl_iff.1 henc with ⟨k, id, hk, hclass, hid, rfl⟩ | ⟨k, hk, hclass, rfl⟩
  · exact ⟨_, exec_decode_controlIdFrame hclass hin, rfl, hk.symm, fun _ => hid.symm⟩
  · refine ⟨_, exec_decode_controlHeader hclass hin, rfl, hk.symm, fun hkind => ?_⟩
    have hcontrol : kindClass k = .controlId := kindClass_controlId.2 (by simpa [hk] using hkind)
    simp [hclass] at hcontrol

/-- Settles O26: the two frames, the rejection of every other kind, and the two faults. -/
theorem encodeControlSemantics : Obligations.EncodeControlSemantics := by
  unfold Obligations.EncodeControlSemantics
  intro s
  refine ⟨fun k id hk hkind hid => exec_encodeControl_id hk (kindClass_controlId.2 hkind) hid,
    fun k hk hkind => exec_encodeControl_handshake hk (kindClass_handshake.2 hkind), fun k hk h01 hC8 hFE hFF => ?_,
    fun hk => exec_eq_fault.2 ?_, fun k hk hkind hid => exec_eq_fault.2 ?_⟩
  · exact exec_encodeControl_of_bad_kind hk (by simp [kindClass_controlId, h01, hC8]) (by simp [kindClass_handshake, hFE, hFF])
  · simp [instrResponse, encodeControlResponse, hk]
  · simp [instrResponse, encodeControlResponse, hk, kindClass_controlId.2 hkind, hid]

end Sys2Proof.Machine
end

section
/-! DECODE as the inverse of the encoders (O45): a datagram that DECODE accepts is the frame of the fields that DECODE writes, so it
is what the encoder of its kind builds from those fields, up to a checksum that no encoder stores. -/

namespace Sys2Proof.Machine

/-! ### A datagram is determined by the bytes that INBUF holds -/

/-- A buffer holds one string of a given length at an address. -/
theorem BufferHolds.eq_of_length {m : Memory} {a : Nat} {xs ys : List Byte} (hx : BufferHolds m a xs)
    (hy : BufferHolds m a ys) (hlen : xs.length = ys.length) : xs = ys := by
  refine List.ext_getElem? fun i => ?_
  by_cases hi : i < xs.length
  · rw [← hx i hi, ← hy i (hlen ▸ hi)]
  · rw [List.getElem?_eq_none (by omega), List.getElem?_eq_none (by omega)]

/-- A field's bytes are those of its value (R15, R90). -/
theorem bufferHolds_of_memRead {r : Request} {a n v : Nat} (h : memRead r a n = .ok v) :
    BufferHolds r.inbuf a (bytesBE n v) := by
  obtain ⟨bs, hlen, hb, rfl⟩ := memRead_eq_ok.1 h
  rwa [bytesBE_beNat hlen]

/-- The bytes of a field as wide as a word are those of the word. -/
theorem bufferHolds_word_of_memRead {r : Request} {a n v w : Nat} (h : memRead r a n = .ok v) (hw : 256 ^ n = 2 ^ w) :
    BufferHolds r.inbuf a (bytesBE n (BitVec.ofNat w v).toNat) := by
  rw [BitVec.toNat_ofNat, Nat.mod_eq_of_lt (hw ▸ memRead_lt h)]
  exact bufferHolds_of_memRead h

/-! ### What DECODE accepts -/

/-- An arm of DECODE that accepts writes the kind it is run for (R47). -/
theorem decodeArm_dKind {c : Config} {r : Request} {n : Nat} {k : Byte} {p : Response} (h : decodeArm c r n k = .ok p)
    (hok : p.status = some statusOk) : p.dKind = some k := by
  rcases decodeArm_ok h with (rfl | rfl) | ⟨seq, next, checksum, bs, -, -, rfl⟩ | ⟨id, -, rfl⟩ | ⟨-, rfl⟩
  · exact absurd hok (by decide)
  · exact absurd hok (by decide)
  · rfl
  · rfl
  · rfl

/-- A response with STATUS = OK is no rejection. -/
theorem ne_malformed_of_ok {p : Response} (hok : p.status = some statusOk) : p ≠ Response.finish statusMalformed := by
  rintro rfl
  exact absurd hok (by decide)

section
variable {s t : State} {frame : List Byte} {k : Byte}

/-- DECODE that accepts a datagram has run the arm of D_KIND, which is byte 16 (R121). -/
theorem arm_of_exec_decode_ok (hin : HasInput s frame) (h : exec .decode s = .next t)
    (hok : t.resp.status = some statusOk) (hkind : t.resp.dKind = some k) :
    Memory.read s.req.inbuf 16 = some k ∧ decodeArm s.cfg s.req frame.length k = .ok t.resp := by
  obtain ⟨hlen, -⟩ := hin
  obtain ⟨p, hp, rfl⟩ := exec_eq_next.1 h
  obtain ⟨n, hn, ⟨-, hbad⟩ | ⟨k', -, h16, harm⟩⟩ := decodeResponse_ok hp
  · exact absurd hbad (ne_malformed_of_ok hok)
  · obtain rfl : frame.length = n := Option.some.inj (hlen.symm.trans hn)
    obtain rfl : k' = k := Option.some.inj ((decodeArm_dKind harm hok).symm.trans hkind)
    exact ⟨h16, harm⟩

/-- A datagram accepted as a data/file frame is the frame of the fields that DECODE writes (R83, R121). -/
theorem dataFrame_of_exec_decode_ok (hin : HasInput s frame) (h : exec .decode s = .next t)
    (hok : t.resp.status = some statusOk) (hkind : t.resp.dKind = some k) (hclass : kindClass k = .dataFile) :
    ∃ seq next p checksum, p.length ≤ 65535 ∧ frame = dataFrameBody seq next k p ++ bytesBE 4 checksum.toNat ∧
      t.resp = dataDecoded seq next k p checksum := by
  obtain ⟨h16, harm⟩ := arm_of_exec_decode_ok hin h hok hkind
  obtain ⟨-, hholds⟩ := hin
  rw [decodeArm, hclass] at harm
  rcases decodeDataFile_ok harm with hbad | ⟨seq, next, checksum, p, hfits, hmax, hplen, hseq, hnext, hp, hsum, hresp⟩
  · exact absurd hbad (ne_malformed_of_ok hok)
  · refine ⟨BitVec.ofNat 64 seq, BitVec.ofNat 64 next, p, BitVec.ofNat 32 checksum, by omega, ?_, hresp⟩
    have hbody : BufferHolds s.req.inbuf 0 (dataFrameBody (BitVec.ofNat 64 seq) (BitVec.ofNat 64 next) k p) :=
      bufferHolds_dataFrameBody.2 ⟨bufferHolds_word_of_memRead hseq (by norm_num),
        bufferHolds_word_of_memRead hnext (by norm_num), h16, bufferHolds_of_memRead hplen, hp⟩
    refine hholds.eq_of_length (bufferHolds_append.2 ⟨hbody, ?_⟩) (by simp; omega)
    simpa using bufferHolds_word_of_memRead hsum (w := 32) (by norm_num)

/-- A datagram of the length that EXACT asks for, accepted as a CF-R frame, its zero fields 0, is the frame of D_KIND and D_REQID
(R84, R121). -/
theorem controlIdFrame_of_exec_decode_ok (hpolicy : s.cfg.lenPolicy = .exact) (hin : HasInput s frame)
    (hzeros : BufferHolds s.req.inbuf 0 (List.replicate 16 0#8)) (h : exec .decode s = .next t)
    (hok : t.resp.status = some statusOk) (hkind : t.resp.dKind = some k) (hclass : kindClass k = .controlId) :
    ∃ id, t.resp.dReqid = some id ∧ frame = controlIdFrame k id := by
  obtain ⟨h16, harm⟩ := arm_of_exec_decode_ok hin h hok hkind
  obtain ⟨-, hholds⟩ := hin
  rw [decodeArm, hclass] at harm
  rcases decodeControlId_ok harm with hbad | ⟨id, hneeded, -, hid, hresp⟩
  · exact absurd hbad (ne_malformed_of_ok hok)
  · have h25 : frame.length = 25 := by simpa [controlLengthOk_iff, hpolicy] using hneeded
    refine ⟨BitVec.ofNat 64 id, by rw [hresp]; rfl, hholds.eq_of_length ?_ (by simpa using h25)⟩
    exact bufferHolds_controlIdFrame.2
      ⟨bufferHolds_controlHeader.2 ⟨hzeros, h16⟩, bufferHolds_word_of_memRead hid (by norm_num)⟩

/-- A datagram of the length that EXACT asks for, accepted as a CF-H frame, its zero fields 0, is the frame of D_KIND (R85, R121). -/
theorem controlHeader_of_exec_decode_ok (hpolicy : s.cfg.lenPolicy = .exact) (hin : HasInput s frame)
    (hzeros : BufferHolds s.req.inbuf 0 (List.replicate 16 0#8)) (h : exec .decode s = .next t)
    (hok : t.resp.status = some statusOk) (hkind : t.resp.dKind = some k) (hclass : kindClass k = .handshake) :
    frame = controlHeader k := by
  obtain ⟨h16, harm⟩ := arm_of_exec_decode_ok hin h hok hkind
  obtain ⟨-, hholds⟩ := hin
  rw [decodeArm, hclass] at harm
  rcases decodeHandshake_ok harm with hbad | ⟨hneeded, -, -⟩
  · exact absurd hbad (ne_malformed_of_ok hok)
  · have h17 : frame.length = 17 := by simpa [controlLengthOk_iff, hpolicy] using hneeded
    exact hholds.eq_of_length (bufferHolds_controlHeader.2 ⟨hzeros, h16⟩) (by simpa using h17)

/-- The encoder of the decoded fields, with INJECT matching the checksum, builds the datagram (R129). -/
theorem encodesData_of_stored {e : State} {seq next : Id} {p : List Byte} {checksum : Crc} {inject : Bool}
    (hframe : frame = dataFrameBody seq next k p ++ bytesBE 4 checksum.toNat) (hclass : kindClass k = .dataFile)
    (hmax : p.length ≤ 65535) (hfit : frame.length ≤ e.cfg.bufBytes) (hseq : e.req.seq = some seq)
    (hnext : e.req.next = some next) (hk : e.req.kind = some k) (hp : HasInput e p) (hinject : e.req.inject = some inject)
    (hsum : checksum = storedChecksum inject (crc32 e.cfg (dataFrameBody seq next k p))) : EncodesData e frame := by
  have heq : frame = dataFrame e.cfg seq next k p inject := by rw [hframe, hsum, dataFrame_eq_stored]
  have hlen : frame.length = 23 + p.length := by rw [heq, dataFrame_length]
  exact encodesData_iff.2 ⟨k, seq, next, p, inject, hk, hclass, hp, hmax, by omega, hseq, hnext, hinject, heq⟩

/-- DECODE of what ENCODE_DATA built reads the CRC or the incremented CRC (R129). -/
theorem dChecksum_of_encodesData {e : State} {p : List Byte} (henc : EncodesData e frame) (hin : HasInput s frame)
    (h : exec .decode s = .next t) (hout : t.resp.outbuf = Memory.ofBytes 0 p) :
    t.resp.dChecksum = some (crc32 e.cfg (frame.take (19 + p.length))) ∨
      t.resp.dChecksum = some (bumpedChecksum (crc32 e.cfg (frame.take (19 + p.length)))) := by
  obtain ⟨_, _, _, _, inject, _, _, _, _, _, _, _, hinject, _⟩ := encodesData_iff.1 henc
  obtain ⟨t', p', ht', _, _, _, _, _, _, _, hout', hclean, hinjected⟩ := dataRoundTrip e s frame henc hin
  obtain rfl : t' = t := by simpa [h] using ht'.symm
  obtain rfl : p' = p := Memory.ofBytes_injective (hout'.symm.trans hout)
  cases inject with
  | false => exact .inl (hclean hinject)
  | true => exact .inr (hinjected hinject)

/-- An accepted control datagram, its zero fields 0, is what ENCODE_CONTROL builds from D_KIND and D_REQID (R129). -/
theorem encodesControl_of_exec_decode_ok {e : State} (hpolicy : s.cfg.lenPolicy = .exact) (hin : HasInput s frame)
    (hzeros : BufferHolds s.req.inbuf 0 (List.replicate 16 0#8)) (h : exec .decode s = .next t)
    (hok : t.resp.status = some statusOk) (hkind : t.resp.dKind = some k)
    (hclass : kindClass k = .controlId ∨ kindClass k = .handshake) (hk : e.req.kind = some k)
    (hid : kindClass k = .controlId → e.req.reqid = t.resp.dReqid) : EncodesControl e frame := by
  rcases hclass with hclass | hclass
  · obtain ⟨id, hdReqid, hframe⟩ := controlIdFrame_of_exec_decode_ok hpolicy hin hzeros h hok hkind hclass
    exact encodesControl_iff.2 (.inl ⟨k, id, hk, hclass, (hid hclass).trans hdReqid, hframe⟩)
  · exact encodesControl_iff.2
      (.inr ⟨k, hk, hclass, controlHeader_of_exec_decode_ok hpolicy hin hzeros h hok hkind hclass⟩)

end

/-- Settles O45: an accepted datagram is the frame of its fields, and ENCODE_DATA stores the CRC or its increment, no other. -/
theorem decodeInvertsEncode : Obligations.DecodeInvertsEncode := by
  unfold Obligations.DecodeInvertsEncode
  intro s t frame hexact _ hin hfit h hok
  refine ⟨fun hkind => ?_, fun hkind htake e hk hid => ?_⟩
  · obtain ⟨k, hdKind, hk⟩ : ∃ k, t.resp.dKind = some k ∧ (k = 0x00#8 ∨ k = 0x02#8) := by
      rcases hkind with hkind | hkind <;> exact ⟨_, hkind, by decide⟩
    have hclass := kindClass_dataFile.2 hk
    obtain ⟨seq, next, p, checksum, hmax, hframe, hresp⟩ := dataFrame_of_exec_decode_ok hin h hok hdKind hclass
    have hbody : frame.take (19 + p.length) = dataFrameBody seq next k p := by rw [hframe, take_dataFrameBody]
    have hout : t.resp.outbuf = Memory.ofBytes 0 p := by rw [hresp]; rfl
    refine ⟨p, hout, fun e inject hcfg hseq hnext hk hp hinject hsum => ?_, fun hclean hinjected e hcfg henc => ?_⟩
    · rw [hresp] at hseq hnext hsum
      rw [hbody, ← hcfg] at hsum
      exact encodesData_of_stored hframe hclass hmax (hcfg ▸ hfit) hseq hnext (hk.trans hdKind) hp hinject
        (Option.some.inj hsum)
    · rcases hcfg ▸ dChecksum_of_encodesData henc hin h hout with hsum | hsum
      · exact hclean hsum
      · exact hinjected hsum
  · obtain ⟨k, hdKind⟩ : ∃ k, t.resp.dKind = some k := by
      rcases hkind with hkind | hkind | hkind | hkind <;> exact ⟨_, hkind⟩
    have hclass : kindClass k = .controlId ∨ kindClass k = .handshake := by
      simpa [hdKind, kindClass_controlId, kindClass_handshake, or_assoc] using hkind
    have hzeros : BufferHolds s.req.inbuf 0 (List.replicate 16 0#8) := by
      obtain ⟨-, hholds⟩ := hin
      rw [← List.take_append_drop 16 frame, htake, bufferHolds_append] at hholds
      exact hholds.1
    exact encodesControl_of_exec_decode_ok hexact hin hzeros h hok hdKind hclass (hk.trans hdKind)
      fun hcontrol => hid (by simpa [hdKind] using kindClass_controlId.1 hcontrol)

end Sys2Proof.Machine
end

section
/-! The checks of DECODE and its totality (O31, O33): each check that fails answers MALFORMED, and DECODE faults only at a ⊥ byte
that it reads, so with those bytes written it completes. -/

namespace Sys2Proof.Machine

/-! ### The checks of R121 -/

/-- Check (1) of DECODE (R121). -/
theorem decodeResponse_of_short {c : Config} {r : Request} {n : Nat} (hn : r.inlen = some n) (h17 : n < 17) :
    decodeResponse c r = .ok (Response.finish statusMalformed) := by
  simp [decodeResponse, hn, h17]

section
variable {c : Config} {r : Request} {n needed : Nat} {k : Byte}

/-- Checks (3) and (4) of DECODE (R121): the length of a data/file datagram, and its payloadLength. -/
theorem decodeArm_of_bad_dataFile_length (hclass : kindClass k = .dataFile)
    (hbad : n < 23 ∨ ∃ len, len < 65536 ∧ BufferHolds r.inbuf 17 (bytesBE 2 len) ∧ 19 + len + 4 ≠ n) :
    decodeArm c r n k = .ok (Response.finish statusMalformed) := by
  by_cases h23 : n < 23
  · simp [decodeArm, hclass, decodeDataFile, h23]
  · obtain ⟨len, hmax, hheld, hne⟩ := hbad.resolve_left h23
    have hread : memRead r 17 2 = .ok len := by
      simpa [beNat_bytesBE (show len < 256 ^ 2 by omega)] using memRead_of_holds hheld
    simp [decodeArm, hclass, decodeDataFile, h23, hread, hne]

/-- Check (5) of DECODE (R121): the length of a control datagram. -/
theorem decodeArm_of_bad_control_length (hneeds : ControlNeeds k needed) (hlen : controlLengthOk c n needed = false) :
    decodeArm c r n k = .ok (Response.finish statusMalformed) := by
  rcases controlNeeds_iff.1 hneeds with ⟨hclass, rfl⟩ | ⟨hclass, rfl⟩
  · simp [decodeArm, hclass, decodeControlId, hlen]
  · simp [decodeArm, hclass, decodeHandshake, hlen]

/-- Check (6) of DECODE (R121): the zero fields of a control datagram. -/
theorem decodeArm_of_bad_zeros (hneeds : ControlNeeds k needed) (hlen : controlLengthOk c n needed = true)
    (hzeros : zeroFieldsOk c r = .ok false) : decodeArm c r n k = .ok (Response.finish statusMalformed) := by
  rcases controlNeeds_iff.1 hneeds with ⟨hclass, rfl⟩ | ⟨hclass, rfl⟩
  · simp [decodeArm, hclass, decodeControlId, hlen, hzeros]
  · simp [decodeArm, hclass, decodeHandshake, hlen, hzeros]

/-- Under REQUIRE_ZERO bytes 0 to 15 that are written and are not all zero fail check (6) (R12). -/
theorem zeroFieldsOk_of_nonzero {bs : List Byte} (hz : c.zeroPolicy = .requireZero) (hlen : bs.length = 16)
    (hheld : BufferHolds r.inbuf 0 bs) (hne : bs ≠ List.replicate 16 0#8) : zeroFieldsOk c r = .ok false := by
  cases hcheck : zeroFieldsOk c r with
  | error f =>
    obtain ⟨_, -, a, -, ⟨-, ha⟩, hnone⟩ := zeroFieldsOk_faults c r f hcheck
    exact absurd hnone (hheld.written (by omega) (by omega))
  | ok zeros =>
    cases zeros with
    | false => rfl
    | true =>
      have hzero := (accepted_of_zeroFieldsOk hcheck).resolve_left (by simp [hz])
      exact absurd (hheld.eq_of_length hzero (by simpa using hlen)) hne

end

/-- A datagram whose arm answers MALFORMED is rejected (R182, R189). -/
theorem exec_decode_malformed {s : State} {n : Nat} {k : Byte} (hn : s.req.inlen = some n) (h17 : 17 ≤ n)
    (h16 : Memory.read s.req.inbuf 16 = some k)
    (harm : decodeArm s.cfg s.req n k = .ok (Response.finish statusMalformed)) :
    exec .decode s = .next (s.completed (Response.finish statusMalformed)) := by
  rw [exec_of_kind (.inl rfl) hn h17 h16, harm, completeWith_ok]

/-- A control datagram is at least a header long (R84, R85). -/
theorem le_of_controlNeeds {k : Byte} {needed : Nat} (h : ControlNeeds k needed) : 17 ≤ needed := by
  rcases h with ⟨-, rfl⟩ | ⟨-, rfl⟩ <;> omega

/-- Settles O31: check (1), then the checks of the kind byte's arm. -/
theorem decodeRejectsInOrder : Obligations.DecodeRejectsInOrder := by
  unfold Obligations.DecodeRejectsInOrder
  intro s n hn
  refine ⟨fun h17 => exec_eq_next.2 ⟨_, decodeResponse_of_short hn h17, rfl⟩, fun h17 k h16 hk hbad => ?_,
    fun h17 k needed h16 hneeds hbad => ?_, fun k needed zeros h16 hneeds hlen hz hzeros hheld hne => ?_⟩
  · exact exec_decode_malformed hn h17 h16 (decodeArm_of_bad_dataFile_length (kindClass_dataFile.2 hk) hbad)
  · have hlen : controlLengthOk s.cfg n needed = false := by
      rw [← Bool.not_eq_true, controlLengthOk_iff]
      rintro (⟨hexact, rfl⟩ | ⟨hatLeast, hle⟩)
      · simp at hbad
      · simp [hatLeast] at hbad
        omega
    exact exec_decode_malformed hn h17 h16 (decodeArm_of_bad_control_length hneeds hlen)
  · have hle : needed ≤ n := by omega
    have hlen : controlLengthOk s.cfg n needed = true := by
      rw [controlLengthOk_iff]
      cases hpolicy : s.cfg.lenPolicy with
      | exact => simpa [hpolicy] using hlen
      | atLeast => exact .inr ⟨rfl, hle⟩
    exact exec_decode_malformed hn ((le_of_controlNeeds hneeds).trans hle) h16
      (decodeArm_of_bad_zeros hneeds hlen (zeroFieldsOk_of_nonzero hz hzeros hheld hne))

/-! ### Totality -/

/-- DECODE of a datagram of n bytes faults only at a ⊥ byte that it reads (R121, R123). -/
theorem decodeResponse_faults_reads {c : Config} {r : Request} {n : Nat} (hn : r.inlen = some n) :
    FaultsWithin (UnwrittenByte r.inbuf (DecodeReads c r.inbuf n)) (decodeResponse c r) := by
  unfold decodeResponse
  rw [hn, need_some, except_bind_ok]
  refine faultsWithin_ite (fun _ => faultsWithin_ok _) fun h17 => ?_
  have hreads := fun a ha => (decodeReads_iff (c := c) (m := r.inbuf) (n := n) (a := a)).2 ⟨Nat.not_lt.1 h17, ha⟩
  refine (faultsWithin_need fun hnone => ⟨16, rfl, hreads 16 (.inl rfl), hnone⟩).bind fun k hk => ?_
  refine (decodeArm_faults c r n k).mono ?_
  rintro _ ⟨a, rfl, ha, hnone⟩
  exact ⟨a, rfl, hreads a (.inr ⟨k, need_eq_ok.1 hk, ha⟩), hnone⟩

/-- DECODE completes where every byte that it reads is written (R128). -/
theorem exec_decode_completes {s : State} {n : Nat} (hn : s.req.inlen = some n)
    (hwritten : ∀ a, DecodeReads s.cfg s.req.inbuf n a → Memory.read s.req.inbuf a ≠ none) :
    ∃ p, decodeResponse s.cfg s.req = .ok p ∧ exec .decode s = .next (s.completed p) := by
  cases hresp : decodeResponse s.cfg s.req with
  | ok p => exact ⟨p, rfl, exec_eq_next.2 ⟨p, hresp, rfl⟩⟩
  | error f =>
    obtain ⟨_, -, a, -, ha, hnone⟩ := decodeResponse_faults_reads hn f hresp
    exact absurd hnone (hwritten a ha)

/-- Settles O33: no byte that DECODE reads is ⊥, so it completes, with a status of its list and a response that those bytes fix. -/
theorem decodeTotal : Obligations.DecodeTotal := by
  unfold Obligations.DecodeTotal
  intro s n hn _ hwritten
  obtain ⟨p, hresp, hexec⟩ := exec_decode_completes hn hwritten
  obtain ⟨status, (hstatus : p.status = some status), hlisted, -⟩ := statusPerCommand .decode s _ hexec
  refine ⟨_, hexec, ?_, fun s' hcfg hn' hagree => ?_⟩
  · have hlisted : status = 0#3 ∨ status = 1#3 ∨ status = 2#3 := by
      simpa [commandCode, encode, statusesOf, statusOk, statusMalformed, statusUnknownKind] using hlisted
    simpa [hstatus] using hlisted
  · have hsame : decodeResponse s'.cfg s'.req = .ok p := by
      rw [hcfg, ← hresp]
      refine (decodeResponse_congr (hn.trans hn'.symm) fun m hm a ha => ?_).symm
      obtain rfl : n = m := Option.some.inj (hn.symm.trans hm)
      exact (hagree a ha).symm
    exact ⟨_, exec_eq_next.2 ⟨p, hsame, rfl⟩, rfl⟩

end Sys2Proof.Machine
end

section
/-! The default CRC: it is the catalogue form of R151 read in reflected bits (O22), CRC32 writes it (O19, O21), and it tells apart
any two strings that differ in one byte, each shift being injective (R161). -/

namespace Sys2Proof.Machine

/-! ### Reflection -/

theorem reverse_xor {w : Nat} (x y : BitVec w) : (x ^^^ y).reverse = x.reverse ^^^ y.reverse := by
  ext i hi
  simp only [BitVec.getElem_xor, BitVec.getElem_reverse, BitVec.getMsbD_xor]

/-- A right shift is the reflection of a left shift. -/
theorem reverse_shiftLeft_one (r : Crc) : (r <<< 1).reverse = r.reverse >>> 1 := by
  ext i hi
  simp [BitVec.getElem_reverse, BitVec.getLsbD_reverse, Nat.add_comm]

/-- A byte reflected at the top end of the register is the byte at the bottom end. -/
theorem reverse_byte_at_top (b : Byte) : (b.reverse.setWidth 32 <<< 24).reverse = b.setWidth 32 := by
  ext i hi
  simp [BitVec.getElem_reverse, BitVec.getMsbD_setWidth, BitVec.getMsbD_reverse]

/-- One shift of R150 is the reflection of one shift of the catalogue form. -/
theorem crcShift_reverse (r : Crc) : crcShift r.reverse = (catalogueShift r).reverse := by
  have hpoly : (0x04C11DB7#32).reverse = 0xEDB88320#32 := by decide +kernel
  have hbit : r.reverse.getLsbD 0 = r.msb := by rw [BitVec.getLsbD_reverse, BitVec.msb]
  unfold crcShift catalogueShift
  rw [hbit]
  split
  · rw [reverse_xor, reverse_shiftLeft_one, hpoly]
  · rw [reverse_shiftLeft_one]

theorem crcShifts_reverse (n : Nat) (r : Crc) : crcShifts n r.reverse = (catalogueShifts n r).reverse := by
  induction n generalizing r with
  | zero => rfl
  | succ n ih => rw [crcShifts, catalogueShifts, crcShift_reverse, ih]

theorem crcByte_reverse (r : Crc) (b : Byte) : crcByte r.reverse b = (catalogueByte r b).reverse := by
  rw [crcByte, catalogueByte, ← crcShifts_reverse, reverse_xor, reverse_byte_at_top]

theorem foldl_crcByte_reverse (s : List Byte) (r : Crc) :
    s.foldl crcByte r.reverse = (s.foldl catalogueByte r).reverse := by
  induction s generalizing r with
  | nil => rfl
  | cons b s ih => rw [List.foldl_cons, List.foldl_cons, crcByte_reverse, ih]

theorem crcIsoHdlc_eq_catalogueCrc (s : List Byte) : crcIsoHdlc s = catalogueCrc s := by
  have hinit : (0xFFFFFFFF#32).reverse = 0xFFFFFFFF#32 := by decide +kernel
  rw [crcIsoHdlc, catalogueCrc, ← foldl_crcByte_reverse, hinit]

/-- The check value of R151: the CRC of "123456789". -/
theorem crcIsoHdlc_check_value :
    crcIsoHdlc [0x31#8, 0x32#8, 0x33#8, 0x34#8, 0x35#8, 0x36#8, 0x37#8, 0x38#8, 0x39#8] = 0xCBF43926#32 := by decide +kernel

/-- Settles O22: the two forms agree shift by shift under reflection; the two values are computed. -/
theorem catalogueCrcAgrees : Obligations.CatalogueCrcAgrees := by
  unfold Obligations.CatalogueCrcAgrees
  exact ⟨crcIsoHdlc_eq_catalogueCrc, crcIsoHdlc_check_value, by decide⟩

/-! ### CRC32 -/

/-- Settles O19. -/
theorem crc32Semantics : Obligations.Crc32Semantics := by
  unfold Obligations.Crc32Semantics
  exact fun s bs hin => exec_crc32 hin

/-- The default CRC_ALGO is CRC-32/ISO-HDLC (R10, R150). -/
theorem crc32_isoHdlc {c : Config} (h : c.crcAlgo = .isoHdlc) (s : List Byte) : crc32 c s = crcIsoHdlc s := by
  rw [crc32, h]

/-- Settles O21: CRC32 writes the check value. -/
theorem crc32WorkedExample : Obligations.Crc32WorkedExample := by
  unfold Obligations.Crc32WorkedExample
  intro s halgo hin
  refine ⟨_, exec_crc32 hin, rfl, ?_⟩
  rw [State.completed_resp, crc32_isoHdlc halgo, crcIsoHdlc_check_value]

/-! ### The CRC tells apart strings that differ in one byte -/

/-- The bit that a shift drops comes back at the top, from the polynomial's top bit. -/
theorem crcShift_msb (r : Crc) : (crcShift r).msb = r.getLsbD 0 := by
  have htop : (r >>> 1).msb = false := by simp [BitVec.msb_ushiftRight]
  have hpoly : (0xEDB88320#32).msb = true := by decide
  cases hbit : r.getLsbD 0 with
  | true => rw [crcShift, if_pos hbit, BitVec.msb_xor, htop, hpoly, Bool.false_xor]
  | false => rw [crcShift, if_neg (by rw [hbit]; exact Bool.false_ne_true), htop]

theorem crcShift_injective : Function.Injective crcShift := by
  intro r r' h
  have hbit : r.getLsbD 0 = r'.getLsbD 0 := by rw [← crcShift_msb, ← crcShift_msb, h]
  have hrest : r >>> 1 = r' >>> 1 := by
    rw [crcShift, crcShift, hbit] at h
    split at h
    · exact (BitVec.xor_left_inj _).1 h
    · exact h
  refine BitVec.eq_of_getLsbD_eq fun i hi => ?_
  cases i with
  | zero => exact hbit
  | succ i => simpa [Nat.add_comm] using congrArg (·.getLsbD i) hrest

theorem crcShifts_injective (n : Nat) : Function.Injective (crcShifts n) := by
  induction n with
  | zero => exact Function.injective_id
  | succ n ih => exact ih.comp crcShift_injective

/-- One byte taken into two registers leaves them different. -/
theorem crcByte_injective_left (b : Byte) : Function.Injective fun r => crcByte r b :=
  fun _ _ h => (BitVec.xor_left_inj _).1 (crcShifts_injective 8 h)

/-- Two bytes taken into one register leave it different. -/
theorem crcByte_injective_right (r : Crc) : Function.Injective (crcByte r) := by
  intro b b' h
  have hwide : b.setWidth 32 = b'.setWidth 32 := (BitVec.xor_right_inj _).1 (crcShifts_injective 8 h)
  simpa using congrArg (BitVec.setWidth 8) hwide

theorem foldl_crcByte_injective (s : List Byte) : Function.Injective fun r => s.foldl crcByte r := by
  induction s with
  | nil => exact Function.injective_id
  | cons b s ih => exact ih.comp (crcByte_injective_left b)

theorem crcIsoHdlc_append_cons_inj {xs ys : List Byte} {b b' : Byte}
    (h : crcIsoHdlc (xs ++ b :: ys) = crcIsoHdlc (xs ++ b' :: ys)) : b = b' := by
  rw [crcIsoHdlc, crcIsoHdlc, BitVec.xor_left_inj, List.foldl_append, List.foldl_append] at h
  exact crcByte_injective_right _ (foldl_crcByte_injective ys h)

/-- One changed byte changes the CRC (R161). -/
theorem crcIsoHdlc_set_ne {s : List Byte} {j : Nat} {b : Byte} (hj : j < s.length) (hb : s[j]? ≠ some b) :
    crcIsoHdlc (s.set j b) ≠ crcIsoHdlc s := by
  intro h
  have hs : s = s.take j ++ s[j] :: s.drop (j + 1) := by rw [← List.set_eq_take_cons_drop _ hj, List.set_getElem_self]
  rw [List.set_eq_take_cons_drop b hj] at h
  conv at h => rhs; rw [hs]
  exact hb (by rw [List.getElem?_eq_getElem hj, crcIsoHdlc_append_cons_inj h])

end Sys2Proof.Machine
end

section
/-! VALIDATE (O34): its checks in the order of R160, the bytes at whose ⊥ it faults, and its verdict on a data/file datagram whose
payloadLength fits. -/

namespace Sys2Proof.Machine

/-- What VALIDATE writes for a data/file datagram that passes its checks (R159). -/
def validated (crc : Crc) (received : Nat) : Response :=
  { Response.finish statusOk with crc := some crc, crcOk := some (crcOkFlag crc received) }

@[simp] theorem validated_status (crc : Crc) (received : Nat) : (validated crc received).status = some statusOk := rfl
@[simp] theorem validated_crc (crc : Crc) (received : Nat) : (validated crc received).crc = some crc := rfl
@[simp] theorem validated_crcOk (crc : Crc) (received : Nat) :
    (validated crc received).crcOk = some (decide (crc.toNat = received)) := rfl

/-- The class of a control kind (R84, R85). -/
theorem kindClass_control {k : Byte} :
    (kindClass k = .controlId ∨ kindClass k = .handshake) ↔ k = 0x01#8 ∨ k = 0xC8#8 ∨ k = 0xFE#8 ∨ k = 0xFF#8 := by
  rw [kindClass_controlId, kindClass_handshake, or_assoc]

/-! ### The checks of R160 -/

section
variable {s : State} {n : Nat} {k : Byte}

/-- VALIDATE of fewer than 17 bytes (R160). -/
theorem exec_validate_of_short (hn : s.req.inlen = some n) (h17 : n < 17) :
    exec .validate s = .next (s.completed (Response.finish statusMalformed)) := by
  rw [exec_eq]
  simp [instrResponse, validateResponse, hn, h17]

/-- VALIDATE of an unknown kind (R160). -/
theorem exec_validate_unknown (hn : s.req.inlen = some n) (h17 : 17 ≤ n) (h16 : Memory.read s.req.inbuf 16 = some k)
    (hclass : kindClass k = .unknown) : exec .validate s = .next (s.completed (Response.finish statusUnknownKind)) := by
  rw [exec_eq]
  simp [instrResponse, validateResponse, hn, Nat.not_lt.2 h17, inByte, h16, hclass]

/-- VALIDATE of a control kind (R160). -/
theorem exec_validate_control (hn : s.req.inlen = some n) (h17 : 17 ≤ n) (h16 : Memory.read s.req.inbuf 16 = some k)
    (hclass : kindClass k = .controlId ∨ kindClass k = .handshake) :
    exec .validate s = .next (s.completed (Response.finish statusBadOperand)) := by
  rw [exec_eq]
  rcases hclass with hclass | hclass <;>
    simp [instrResponse, validateResponse, hn, Nat.not_lt.2 h17, inByte, h16, hclass]

/-- VALIDATE of a data/file kind goes on to the checks of the length (R159). -/
theorem exec_validate_dataFile (hn : s.req.inlen = some n) (h17 : 17 ≤ n) (h16 : Memory.read s.req.inbuf 16 = some k)
    (hclass : kindClass k = .dataFile) : exec .validate s = completeWith s (validateDataFile s.cfg s.req n) := by
  rw [exec_eq]
  simp [instrResponse, validateResponse, hn, Nat.not_lt.2 h17, inByte, h16, hclass]

end

section
variable {c : Config} {r : Request} {n : Nat}

/-- The two checks of the length of a data/file datagram (R160). -/
theorem validateDataFile_of_bad_length
    (hbad : n < 23 ∨ ∃ len, len < 65536 ∧ BufferHolds r.inbuf 17 (bytesBE 2 len) ∧ 19 + len + 4 ≠ n) :
    validateDataFile c r n = .ok (Response.finish statusMalformed) := by
  by_cases h23 : n < 23
  · simp [validateDataFile, h23]
  · obtain ⟨len, hmax, hheld, hne⟩ := hbad.resolve_left h23
    have hread : memRead r 17 2 = .ok len := by
      simpa [beNat_bytesBE (show len < 256 ^ 2 by omega)] using memRead_of_holds hheld
    simp [validateDataFile, h23, hread, hne]

/-- The verdict on a data/file datagram whose payloadLength fits it (R159). -/
theorem validateDataFile_of_lengthRule {covered received : List Byte} (hrule : LengthRule r.inbuf n)
    (hn : covered.length + 4 = n) (hfour : received.length = 4) (hcovered : BufferHolds r.inbuf 0 covered)
    (hreceived : BufferHolds r.inbuf covered.length received) :
    validateDataFile c r n = .ok (validated (crc32 c covered) (beNat received)) := by
  have ⟨h23, _, _⟩ := hrule
  have hlen : 19 + (n - 23) = covered.length := by omega
  have hsum : memRead r covered.length 4 = .ok (beNat received) := hfour ▸ memRead_of_holds hreceived
  simp [validateDataFile, Nat.not_lt.2 h23, memRead_of_lengthRule hrule, hlen, hn, inBytes_of_holds hcovered, hsum, validated]

/-! ### The faults of R160 -/

/-- Past its kind checks VALIDATE reads payloadLength, and every byte once the length rule holds (R159, R160). -/
theorem validateDataFile_faults_reads (c : Config) (r : Request) (n : Nat) :
    FaultsWithin (UnwrittenByte r.inbuf (DataFileReads r.inbuf n)) (validateDataFile c r n) := by
  refine faultsWithin_ite (fun _ => faultsWithin_ok _) fun h23 => ?_
  refine (faultsWithin_memRead fun x _ _ hnone => ⟨x, rfl, ⟨by omega, by omega⟩, hnone⟩).bind fun len hlen => ?_
  refine faultsWithin_ite (fun _ => faultsWithin_ok _) fun hn => ?_
  have hreads : ∀ x, x < n → Memory.read r.inbuf x = none → UnwrittenByte r.inbuf (DataFileReads r.inbuf n) (.inbuf x) :=
    fun x hx hnone => ⟨x, rfl, ⟨by omega, .inr (.inr ⟨lengthRule_of_memRead hlen (by omega), hx⟩)⟩, hnone⟩
  refine (faultsWithin_inBytes fun x _ _ => hreads x (by omega)).bind fun _ _ => ?_
  exact (faultsWithin_memRead fun x _ _ => hreads x (by omega)).bind fun _ _ => faultsWithin_ok _

/-- Where VALIDATE answers past its kind checks, every byte that it reads is written. -/
theorem validateDataFile_written {a : Nat} {p : Response} (h : validateDataFile c r n = .ok p)
    (ha : DataFileReads r.inbuf n a) : Memory.read r.inbuf a ≠ none := by
  obtain ⟨h23, ha⟩ := ha
  rw [validateDataFile, if_neg (by omega), except_bind_eq_ok] at h
  obtain ⟨len, hlen, h⟩ := h
  rcases ha with rfl | rfl | ⟨hrule, ha⟩
  · exact memRead_written hlen (by omega) (by omega)
  · exact memRead_written hlen (by omega) (by omega)
  · obtain rfl : n - 23 = len := by simpa [memRead_of_lengthRule hrule] using hlen
    rw [if_neg (by omega)] at h
    simp only [except_bind_eq_ok] at h
    obtain ⟨covered, hcovered, received, hreceived, -⟩ := h
    by_cases hcov : a < 19 + (n - 23)
    · exact inBytes_written hcovered (by omega) (by omega)
    · exact memRead_written hreceived (by omega) (by omega)

end

/-- VALIDATE of a data/file datagram of which it reads a ⊥ byte faults, and names one such byte. -/
theorem exec_validate_fault {s : State} {n a : Nat} {k : Byte} (hn : s.req.inlen = some n) (h17 : 17 ≤ n)
    (h16 : Memory.read s.req.inbuf 16 = some k) (hclass : kindClass k = .dataFile) (ha : DataFileReads s.req.inbuf n a)
    (hnone : Memory.read s.req.inbuf a = none) :
    ∃ b, exec .validate s = .fault (.unwrittenOperand (.inbuf b)) ∧ DataFileReads s.req.inbuf n b ∧
      Memory.read s.req.inbuf b = none := by
  rw [exec_validate_dataFile hn h17 h16 hclass]
  cases hresp : validateDataFile s.cfg s.req n with
  | ok p => exact absurd hnone (validateDataFile_written hresp ha)
  | error f =>
    obtain ⟨_, rfl, b, rfl, hb, hbnone⟩ := validateDataFile_faults_reads s.cfg s.req n f hresp
    exact ⟨b, rfl, hb, hbnone⟩

/-! ### The verdict -/

/-- The covered bytes of a data/file datagram (R83, R152): its kind is DATA or FILE, and its payloadLength counts the bytes after
itself. -/
def DataFileCovered (covered : List Byte) : Prop :=
  (∃ k, covered[16]? = some k ∧ kindClass k = .dataFile) ∧
  ∃ len, len < 65536 ∧ covered.length = 19 + len ∧ covered[17]? = (bytesBE 2 len)[0]? ∧ covered[18]? = (bytesBE 2 len)[1]?

/-- A buffer holds two bytes. -/
theorem bufferHolds_two {m : Memory} {a : Nat} {bs : List Byte} (hlen : bs.length = 2) :
    BufferHolds m a bs ↔ Memory.read m a = bs[0]? ∧ Memory.read m (a + 1) = bs[1]? := by
  match bs, hlen with
  | [b, b'], _ => simp [bufferHolds_cons]

theorem lengthRule_of_covered {m : Memory} {covered : List Byte} (hcov : DataFileCovered covered)
    (hheld : BufferHolds m 0 covered) : LengthRule m (covered.length + 4) := by
  obtain ⟨-, len, hmax, hlen, hhigh, hlow⟩ := hcov
  have hlen' : covered.length + 4 - 23 = len := by omega
  refine ⟨by omega, by omega, ?_⟩
  rw [hlen', bufferHolds_two (bytesBE_length 2 len), ← hhigh, ← hlow]
  exact ⟨by simpa using hheld 17 (by omega), by simpa using hheld 18 (by omega)⟩

/-- VALIDATE of a data/file datagram whose payloadLength fits it: the CRC of its covered bytes against its last four (R159). -/
theorem exec_validate_covered {s : State} {covered received : List Byte} (hin : HasInput s (covered ++ received))
    (hcov : DataFileCovered covered) (hfour : received.length = 4) :
    exec .validate s = .next (s.completed (validated (crc32 s.cfg covered) (beNat received))) := by
  obtain ⟨hn, hheld⟩ := hin
  obtain ⟨hcovered, hreceived⟩ := bufferHolds_append.1 hheld
  have ⟨⟨k, h16, hclass⟩, len, _, hlen, _⟩ := hcov
  rw [List.length_append, hfour] at hn
  have hread : Memory.read s.req.inbuf 16 = some k := by rw [← h16]; simpa using hcovered 16 (by omega)
  rw [exec_validate_dataFile hn (by omega) hread hclass, validateDataFile_of_lengthRule (lengthRule_of_covered hcov hcovered) rfl
    hfour hcovered (by simpa using hreceived), completeWith_ok]

/-- Settles O34: the checks in their order, the bytes at whose ⊥ it faults, and the verdict. -/
theorem validateSemantics : Obligations.ValidateSemantics := by
  unfold Obligations.ValidateSemantics
  intro s
  refine ⟨fun hn => exec_eq_fault.2 (by simp [instrResponse, validateResponse, hn]),
    fun n hn => ⟨fun h17 => exec_validate_of_short hn h17, fun h17 h16 => exec_eq_fault.2 ?_,
      fun h17 k h16 => ⟨fun hk => ?_, fun hk => ?_, fun hk hbad => ?_, fun hk h23 hfit hlen ⟨a, ha, hnone⟩ => ?_,
        fun hk h23 ⟨a, ha, hnone⟩ => ?_⟩⟩,
    fun k covered received hin hfour h16 hk hlen => exec_validate_covered hin ⟨⟨k, h16, kindClass_dataFile.2 hk⟩, hlen⟩ hfour⟩
  · simp [instrResponse, validateResponse, hn, Nat.not_lt.2 h17, inByte, h16]
  · exact exec_validate_unknown hn h17 h16 (kindClass_unknown.2 hk)
  · exact exec_validate_control hn h17 h16 (kindClass_control.2 hk)
  · rw [exec_validate_dataFile hn h17 h16 (kindClass_dataFile.2 hk), validateDataFile_of_bad_length hbad]
    rfl
  · obtain ⟨b, hfault, hb, hbnone⟩ := exec_validate_fault hn h17 h16 (kindClass_dataFile.2 hk)
      ⟨h23, .inr (.inr ⟨⟨h23, hfit, hlen⟩, ha⟩)⟩ hnone
    exact ⟨b, hfault, dataFileReads_lt hb, hbnone⟩
  · obtain ⟨b, hfault, ⟨-, hb | hb | ⟨⟨-, -, hlen⟩, -⟩⟩, hbnone⟩ :=
      exec_validate_fault hn h17 h16 (kindClass_dataFile.2 hk) ⟨h23, by omega⟩ hnone
    · exact ⟨b, hfault, .inl hb, hbnone⟩
    · exact ⟨b, hfault, .inr hb, hbnone⟩
    · exact absurd hnone (hlen.written (by omega) (by rw [bytesBE_length]; omega))

end Sys2Proof.Machine
end

section
/-! VALIDATE and DECODE agree on written datagrams (O48): both complete, and on a data/file datagram of at least 17 bytes both
decide by the length rule alone. -/

namespace Sys2Proof.Machine

/-! ### Both complete -/

theorem HasInput.written {s : State} {bs : List Byte} {a : Nat} (hin : HasInput s bs) (ha : a < bs.length) :
    Memory.read s.req.inbuf a ≠ none := by
  obtain ⟨-, hheld⟩ := hin
  exact hheld.written (Nat.zero_le a) (by omega)

theorem HasInput.read {s : State} {bs : List Byte} {a : Nat} (hin : HasInput s bs) (ha : a < bs.length) :
    Memory.read s.req.inbuf a = bs[a]? := by
  obtain ⟨-, hheld⟩ := hin
  simpa using hheld a ha

/-- VALIDATE of a datagram of n bytes faults only at a ⊥ byte that it reads (R159, R160). -/
theorem validateResponse_faults_reads {c : Config} {r : Request} {n : Nat} (hn : r.inlen = some n) :
    FaultsWithin (UnwrittenByte r.inbuf (ValidateReads r.inbuf n)) (validateResponse c r) := by
  unfold validateResponse
  rw [hn, need_some, except_bind_ok]
  refine faultsWithin_ite (fun _ => faultsWithin_ok _) fun h17 => ?_
  refine (faultsWithin_need fun hnone => ⟨16, rfl, ⟨by omega, .inl rfl⟩, hnone⟩).bind fun k hk => ?_
  cases hclass : kindClass k with
  | unknown => exact faultsWithin_ok _
  | controlId => exact faultsWithin_ok _
  | handshake => exact faultsWithin_ok _
  | dataFile =>
    refine (validateDataFile_faults_reads c r n).mono ?_
    rintro _ ⟨a, rfl, ha, hnone⟩
    exact ⟨a, rfl, ⟨by omega, .inr ⟨k, need_eq_ok.1 hk, kindClass_dataFile.1 hclass, ha⟩⟩, hnone⟩

/-- VALIDATE completes on a written datagram. -/
theorem exec_validate_completes {s : State} {bs : List Byte} (hin : HasInput s bs) :
    ∃ t, exec .validate s = .next t := by
  cases hresp : validateResponse s.cfg s.req with
  | ok p => exact ⟨_, exec_eq_next.2 ⟨p, hresp, rfl⟩⟩
  | error f =>
    have ⟨hn, _⟩ := hin
    obtain ⟨_, -, a, -, ha, hnone⟩ := validateResponse_faults_reads hn f hresp
    exact absurd hnone (hin.written (validateReads_lt ha))

/-! ### Both decide by the length rule -/

section
variable {c : Config} {r : Request} {n : Nat} {k : Byte} {p : Response}

/-- MALFORMED or OK, as the length rule decides. -/
def StatusByLengthRule (m : Memory) (n : Nat) (p : Response) : Prop :=
  (LengthRule m n ∧ p.status = some statusOk) ∨ (¬LengthRule m n ∧ p.status = some statusMalformed)

theorem StatusByLengthRule.malformed_iff {m : Memory} (h : StatusByLengthRule m n p) :
    p.status = some statusMalformed ↔ ¬LengthRule m n := by
  rcases h with ⟨hrule, hstatus⟩ | ⟨hrule, hstatus⟩ <;> simp [hrule, hstatus, statusOk, statusMalformed]

theorem StatusByLengthRule.ok_iff {m : Memory} (h : StatusByLengthRule m n p) :
    p.status = some statusOk ↔ LengthRule m n := by
  rcases h with ⟨hrule, hstatus⟩ | ⟨hrule, hstatus⟩ <;> simp [hrule, hstatus, statusOk, statusMalformed]

theorem decodeDataFile_status (h : decodeDataFile r n k = .ok p) : StatusByLengthRule r.inbuf n p := by
  by_cases hrule : LengthRule r.inbuf n
  · have ⟨h23, _, _⟩ := hrule
    rw [decodeDataFile, if_neg (by omega), memRead_of_lengthRule hrule, except_bind_ok, if_neg (by omega)] at h
    simp only [except_bind_eq_ok, except_pure, Except.ok.injEq] at h
    obtain ⟨_, -, _, -, _, -, _, -, rfl⟩ := h
    exact .inl ⟨hrule, rfl⟩
  · rcases decodeDataFile_ok h with rfl | ⟨_, _, _, bs, hn, -, hlen, -⟩
    · exact .inr ⟨hrule, rfl⟩
    · exact absurd (lengthRule_of_memRead hlen hn) hrule

theorem validateDataFile_status (h : validateDataFile c r n = .ok p) : StatusByLengthRule r.inbuf n p := by
  by_cases hrule : LengthRule r.inbuf n
  · have ⟨h23, _, _⟩ := hrule
    rw [validateDataFile, if_neg (by omega), memRead_of_lengthRule hrule, except_bind_ok, if_neg (by omega)] at h
    simp only [except_bind_eq_ok, except_pure, Except.ok.injEq] at h
    obtain ⟨_, -, _, -, rfl⟩ := h
    exact .inl ⟨hrule, rfl⟩
  · rcases validateDataFile_ok h with rfl | ⟨len, _, _, hn, hlen, -⟩
    · exact .inr ⟨hrule, rfl⟩
    · exact absurd (lengthRule_of_memRead hlen hn) hrule

end

section
variable {s t : State} {bs : List Byte} {k : Byte}

/-- Byte 16 of a written datagram is what DECODE and VALIDATE read as its kind. -/
theorem HasInput.kind (hin : HasInput s bs) (h16 : bs[16]? = some k) :
    17 ≤ bs.length ∧ Memory.read s.req.inbuf 16 = some k := by
  obtain ⟨hlt, -⟩ := List.getElem?_eq_some_iff.1 h16
  exact ⟨hlt, (hin.read hlt).trans h16⟩

theorem exec_decode_status (hin : HasInput s bs) (h16 : bs[16]? = some k) (hclass : kindClass k = .dataFile)
    (h : exec .decode s = .next t) : StatusByLengthRule s.req.inbuf bs.length t.resp := by
  have ⟨hn, _⟩ := hin
  obtain ⟨h17, hread⟩ := hin.kind h16
  rw [exec_of_kind (.inl rfl) hn h17 hread, decodeArm, hclass] at h
  obtain ⟨p, hp, rfl⟩ := completeWith_eq_next.1 h
  exact decodeDataFile_status hp

theorem exec_validate_status (hin : HasInput s bs) (h16 : bs[16]? = some k) (hclass : kindClass k = .dataFile)
    (h : exec .validate s = .next t) : StatusByLengthRule s.req.inbuf bs.length t.resp := by
  have ⟨hn, _⟩ := hin
  obtain ⟨h17, hread⟩ := hin.kind h16
  rw [exec_validate_dataFile hn h17 hread hclass] at h
  obtain ⟨p, hp, rfl⟩ := completeWith_eq_next.1 h
  exact validateDataFile_status hp

end

/-- A completion has one response. -/
theorem resp_eq_of_exec {i : Instr} {s t : State} {p : Response} (h : exec i s = .next t)
    (hp : exec i s = .next (s.completed p)) : t.resp = p := by
  obtain rfl : s.completed p = t := by simpa [h] using hp.symm
  rfl

/-- Settles O48: each clause is one check that both commands make, the length rule for a data/file datagram. -/
theorem validateAgreesWithDecode : Obligations.ValidateAgreesWithDecode := by
  unfold Obligations.ValidateAgreesWithDecode
  intro s bs hin
  have ⟨hn, _⟩ := hin
  obtain ⟨p, -, hdecode⟩ := exec_decode_completes hn fun a ha => hin.written (decodeReads_lt ha)
  obtain ⟨v, hvalidate⟩ := exec_validate_completes hin
  refine ⟨_, v, hdecode, hvalidate, ?_, fun k h16 hk => ?_, fun k h16 hk => ?_⟩
  · rintro (h17 | ⟨-, hkind⟩)
    · rw [resp_eq_of_exec hdecode (exec_eq_next.2 ⟨_, decodeResponse_of_short hn h17, rfl⟩),
        resp_eq_of_exec hvalidate (exec_validate_of_short hn h17)]
      exact ⟨Iff.rfl, Iff.rfl⟩
    · obtain ⟨k, h16, hk⟩ : ∃ k, bs[16]? = some k ∧ (k = 0x00#8 ∨ k = 0x02#8) := by
        rcases hkind with hkind | hkind <;> exact ⟨_, hkind, by decide⟩
      have hd := exec_decode_status hin h16 (kindClass_dataFile.2 hk) hdecode
      have hv := exec_validate_status hin h16 (kindClass_dataFile.2 hk) hvalidate
      exact ⟨hd.malformed_iff.trans hv.malformed_iff.symm, hd.ok_iff.trans hv.ok_iff.symm⟩
  · obtain ⟨h17, hread⟩ := hin.kind h16
    have hclass := kindClass_unknown.2 hk
    have hd : exec .decode s = .next (s.completed (Response.finish statusUnknownKind)) := by
      rw [exec_of_kind (.inl rfl) hn h17 hread, decodeArm_unknown hclass, completeWith_ok]
    rw [resp_eq_of_exec hdecode hd, resp_eq_of_exec hvalidate (exec_validate_unknown hn h17 hread hclass)]
    exact ⟨rfl, rfl⟩
  · obtain ⟨h17, hread⟩ := hin.kind h16
    rw [resp_eq_of_exec hvalidate (exec_validate_control hn h17 hread (kindClass_control.2 hk))]
    rfl

end Sys2Proof.Machine
end

section
/-! VALIDATE of the frames that ENCODE_DATA builds (O24, O46, O47): covered bytes and the checksum they store, which injection alone
makes differ from their CRC (R163, R164, R166). -/

namespace Sys2Proof.Machine

/-- The checksum depends on CRC_ALGO alone (R10). -/
theorem crc32_congr {c c' : Config} (h : c.crcAlgo = c'.crcAlgo) (bs : List Byte) : crc32 c bs = crc32 c' bs := by
  rw [crc32, crc32, h]

/-- The incremented checksum is not the CRC (R163). -/
theorem bumpedChecksum_ne (crc : Crc) : bumpedChecksum crc ≠ crc := by
  intro h
  have hlow := bumpedChecksum_setWidth crc
  rw [h] at hlow
  simp at hlow

/-- The covered bytes of an encoded frame (R83). -/
theorem dataFileCovered_dataFrameBody {seq next : Id} {k : Byte} {p : List Byte} (hclass : kindClass k = .dataFile)
    (hmax : p.length ≤ 65535) : DataFileCovered (dataFrameBody seq next k p) := by
  refine ⟨⟨k, ?_, hclass⟩, p.length, by omega, dataFrameBody_length seq next k p, ?_, ?_⟩ <;>
    simp [dataFrameBody, List.getElem?_append]

/-- What ENCODE_DATA builds is covered bytes and the checksum that INJECT makes it store (R83, R153, R163). -/
theorem covered_of_encodesData {e : State} {frame : List Byte} {inject : Bool} (henc : EncodesData e frame)
    (hinject : e.req.inject = some inject) :
    ∃ covered, DataFileCovered covered ∧
      frame = covered ++ bytesBE 4 (storedChecksum inject (crc32 e.cfg covered)).toNat := by
  obtain ⟨k, seq, next, p, inject', -, hclass, -, hmax, -, -, -, hinject', rfl⟩ := encodesData_iff.1 henc
  obtain rfl : inject' = inject := Option.some.inj (hinject'.symm.trans hinject)
  exact ⟨_, dataFileCovered_dataFrameBody hclass hmax, dataFrame_eq_stored e.cfg seq next k p inject'⟩

/-- The last four bytes of a frame are its stored checksum. -/
theorem beNat_drop_stored (covered : List Byte) (checksum : Crc) :
    beNat ((covered ++ bytesBE 4 checksum.toNat).drop ((covered ++ bytesBE 4 checksum.toNat).length - 4)) =
      checksum.toNat := by
  rw [List.drop_left' (by simp), beNat_bytesBE_crc]

/-- VALIDATE of covered bytes and a checksum compares the two (R159). -/
theorem exec_validate_stored {s : State} {covered : List Byte} {checksum : Crc} (hcov : DataFileCovered covered)
    (hin : HasInput s (covered ++ bytesBE 4 checksum.toNat)) :
    exec .validate s = .next (s.completed (validated (crc32 s.cfg covered) checksum.toNat)) := by
  rw [exec_validate_covered hin hcov (bytesBE_length 4 _), beNat_bytesBE_crc]

/-- Settles O46: the stored checksum is the CRC. -/
theorem cleanFramesValidate : Obligations.CleanFramesValidate := by
  unfold Obligations.CleanFramesValidate
  intro e s frame henc hinject halgo hin
  obtain ⟨covered, hcov, rfl⟩ := covered_of_encodesData henc hinject
  rw [storedChecksum_false, ← crc32_congr halgo] at hin ⊢
  refine ⟨_, exec_validate_stored hcov hin, rfl, by simp, ?_⟩
  rw [beNat_drop_stored]
  rfl

/-- Settles O47: the stored checksum is the incremented CRC. -/
theorem injectedFramesFailValidation : Obligations.InjectedFramesFailValidation := by
  unfold Obligations.InjectedFramesFailValidation
  intro e s frame henc hinject halgo hin
  obtain ⟨covered, hcov, rfl⟩ := covered_of_encodesData henc hinject
  rw [storedChecksum_true, ← crc32_congr halgo] at hin
  refine ⟨_, exec_validate_stored hcov hin, rfl, ?_⟩
  simp [BitVec.toNat_inj, (bumpedChecksum_ne _).symm]

/-! ### Injection -/

/-- ENCODE_DATA builds one frame. -/
theorem EncodesData.unique {e : State} {frame frame' : List Byte} (h : EncodesData e frame) (h' : EncodesData e frame') :
    frame = frame' := by
  obtain ⟨t, ht, -, -, hout⟩ := h
  obtain ⟨t', ht', -, -, hout'⟩ := h'
  obtain rfl : t = t' := by simpa [ht] using ht'
  exact Memory.ofBytes_injective (hout.symm.trans hout')

/-- With INJECT the other way, ENCODE_DATA builds the frame of the same fields. -/
theorem dataFrame_pair_of_encodesData {s clean : State} {frame plain : List Byte} (hinject : s.req.inject = some true)
    (hclean : clean = { s with req := { s.req with inject := some false } }) (hframe : EncodesData s frame)
    (hplain : EncodesData clean plain) :
    ∃ seq next k p, frame = dataFrame s.cfg seq next k p true ∧ plain = dataFrame s.cfg seq next k p false := by
  obtain ⟨k, seq, next, p, inject, hk, hclass, hp, hmax, hfit, hseq, hnext, hinject', rfl⟩ := encodesData_iff.1 hframe
  obtain rfl : inject = true := Option.some.inj (hinject'.symm.trans hinject)
  subst hclean
  exact ⟨seq, next, k, p, rfl, hplain.unique
    (encodesData_iff.2 ⟨k, seq, next, p, false, hk, hclass, hp, hmax, hfit, hseq, hnext, rfl, rfl⟩)⟩

/-- Settles O24: both frames are one string and a last byte, and the stored checksum is the incremented CRC. -/
theorem injectionBumpsLastByte : Obligations.InjectionBumpsLastByte := by
  unfold Obligations.InjectionBumpsLastByte
  intro s clean frame plain hinject hclean hframe hplain
  obtain ⟨seq, next, k, p, hframe, hplain⟩ := dataFrame_pair_of_encodesData hinject hclean hframe hplain
  obtain ⟨front, last, hplain, hbumped⟩ : ∃ front last, plain = front ++ [last] ∧ frame = front ++ [last + 1#8] :=
    ⟨_, _, hplain.trans (dataFrame_eq ..), hframe.trans (dataFrame_eq ..)⟩
  refine ⟨by simp [hplain, hbumped], fun a ha => ?_, ⟨last, by simp [hplain], by simp [hplain, hbumped]⟩, ?_⟩
  · have ha : a < front.length := by simpa [hplain] using ha
    rw [hplain, hbumped, List.getElem?_append_left ha, List.getElem?_append_left ha]
  · rw [hframe, dataFrame_eq_stored, beNat_drop_stored, List.take_left' (by simp), storedChecksum_true, BitVec.ofNat_toNat,
      BitVec.setWidth_eq]

end Sys2Proof.Machine
end

section
/-! VALIDATE of a clean frame with one byte changed (O49), by where the byte stands (R161): covered bytes by the CRC, the kind by its
class, payloadLength by the length rule, and the checksum by its value. -/

namespace Sys2Proof.Machine

/-- A changed covered byte that keeps the kind a data/file kind and payloadLength leaves covered bytes of a data/file datagram. -/
theorem DataFileCovered.set {covered : List Byte} {j : Nat} {b : Byte} (hcov : DataFileCovered covered)
    (hj : j < 16 ∨ (j = 16 ∧ kindClass b = .dataFile) ∨ 19 ≤ j) : DataFileCovered (covered.set j b) := by
  obtain ⟨⟨k, h16, hclass⟩, len, hmax, hlen, hhigh, hlow⟩ := hcov
  refine ⟨?_, len, hmax, by rw [List.length_set, hlen], by rw [List.getElem?_set_ne (by omega), hhigh],
    by rw [List.getElem?_set_ne (by omega), hlow]⟩
  rcases hj with hlow16 | ⟨rfl, hb⟩ | h19
  · exact ⟨k, by rw [List.getElem?_set_ne (by omega), h16], hclass⟩
  · exact ⟨b, List.getElem?_set_self (by omega), hb⟩
  · exact ⟨k, by rw [List.getElem?_set_ne (by omega), h16], hclass⟩

/-- A changed byte changes a string's value. -/
theorem beNat_set_ne {bs : List Byte} {i : Nat} {b : Byte} (hi : i < bs.length) (hb : bs[i]? ≠ some b) :
    beNat (bs.set i b) ≠ beNat bs := by
  intro h
  have hset := beNat_inj (List.length_set ..) h
  exact hb (by rw [← hset, List.getElem?_set_self hi])

/-- A changed byte of payloadLength breaks the length rule (R161). -/
theorem not_lengthRule_of_changed {m : Memory} {covered : List Byte} {j : Nat} (hcov : DataFileCovered covered)
    (hj : j = 17 ∨ j = 18) (hchanged : Memory.read m j ≠ covered[j]?) : ¬LengthRule m (covered.length + 4) := by
  rintro ⟨-, -, hheld⟩
  obtain ⟨-, len, -, hlen, hhigh, hlow⟩ := hcov
  rw [show covered.length + 4 - 23 = len by omega, bufferHolds_two (bytesBE_length 2 len)] at hheld
  obtain ⟨h17, h18⟩ := hheld
  rcases hj with rfl | rfl
  · exact hchanged (h17.trans hhigh.symm)
  · exact hchanged (h18.trans hlow.symm)

section
variable {s t : State} {covered : List Byte} {j : Nat} {b : Byte}

/-- A covered byte other than those of payloadLength, the kind still a data/file kind: no check fails, and the default CRC tells. -/
theorem validate_of_covered_changed (hcov : DataFileCovered covered)
    (hj : j < 16 ∨ (j = 16 ∧ kindClass b = .dataFile) ∨ 19 ≤ j) (hlt : j < covered.length) (hb : covered[j]? ≠ some b)
    (hin : HasInput s (covered.set j b ++ bytesBE 4 (crc32 s.cfg covered).toNat)) (h : exec .validate s = .next t) :
    t.resp.status = some statusOk ∧ (s.cfg.crcAlgo = .isoHdlc → t.resp.crcOk = some false) := by
  rw [resp_eq_of_exec h (exec_validate_stored (hcov.set hj) hin)]
  refine ⟨rfl, fun halgo => ?_⟩
  have hne := crcIsoHdlc_set_ne hlt hb
  simpa [crc32_isoHdlc halgo, BitVec.toNat_inj] using hne

/-- A checksum byte (R161). -/
theorem validate_of_checksum_changed {i : Nat} (hcov : DataFileCovered covered) (hi : i < 4)
    (hb : (bytesBE 4 (crc32 s.cfg covered).toNat)[i]? ≠ some b)
    (hin : HasInput s (covered ++ (bytesBE 4 (crc32 s.cfg covered).toNat).set i b)) (h : exec .validate s = .next t) :
    t.resp.status = some statusOk ∧ t.resp.crcOk = some false := by
  rw [resp_eq_of_exec h (exec_validate_covered hin hcov (by simp))]
  have hne := beNat_set_ne (by simpa using hi) hb
  rw [beNat_bytesBE_crc] at hne
  exact ⟨rfl, by simpa using hne.symm⟩

/-- A byte of payloadLength (R161). -/
theorem validate_of_payloadLength_changed {checksum : Crc} (hcov : DataFileCovered covered) (hj : j = 17 ∨ j = 18)
    (hb : covered[j]? ≠ some b) (hin : HasInput s (covered.set j b ++ bytesBE 4 checksum.toNat))
    (h : exec .validate s = .next t) : t.resp.status = some statusMalformed := by
  have ⟨⟨k, h16, hclass⟩, len, _, hlen, _⟩ := hcov
  have hread : Memory.read s.req.inbuf j = some b := by
    rw [hin.read (by simp; omega), List.getElem?_append_left (by simp; omega), List.getElem?_set_self (by omega)]
  have hkind : (covered.set j b ++ bytesBE 4 checksum.toNat)[16]? = some k := by
    rw [List.getElem?_append_left (by simp; omega), List.getElem?_set_ne (by omega), h16]
  refine (exec_validate_status hin hkind hclass h).malformed_iff.2 ?_
  simpa using not_lengthRule_of_changed (m := s.req.inbuf) hcov hj (by rw [hread]; exact hb.symm)

end

/-- Settles O49: one row for each place of the changed byte. -/
theorem singleByteChange : Obligations.SingleByteChange := by
  unfold Obligations.SingleByteChange
  intro e s frame j b henc hinject halgo hj hb hin
  obtain ⟨covered, hcov, rfl⟩ := covered_of_encodesData henc hinject
  rw [storedChecksum_false, ← crc32_congr halgo] at hj hb hin ⊢
  obtain ⟨t, h⟩ := exec_validate_completes hin
  have ⟨_, len, _, hlen, _⟩ := hcov
  simp only [List.length_append, bytesBE_length] at hj ⊢
  refine ⟨t, h, ?_⟩
  by_cases hplace : j < covered.length
  · rw [List.getElem?_append_left hplace] at hb
    rw [List.set_append_left _ _ hplace] at hin
    have hnewKind : j = 16 → (covered.set j b ++ bytesBE 4 (crc32 s.cfg covered).toNat)[16]? = some b := by
      rintro rfl
      rw [List.getElem?_append_left (by simpa using hplace), List.getElem?_set_self hplace]
    have ⟨hn, _⟩ := hin
    refine ⟨fun h16 => validate_of_covered_changed hcov (.inl h16) hplace hb hin h,
      fun h16 hk => validate_of_covered_changed hcov (.inr (.inl ⟨h16, kindClass_dataFile.2 hk⟩)) hplace hb hin h,
      fun h16 hk => ?_, fun h16 hk => ?_, fun h17 => validate_of_payloadLength_changed hcov h17 hb hin h,
      fun h19 _ => validate_of_covered_changed hcov (.inr (.inr h19)) hplace hb hin h, fun hend => by omega⟩
    · obtain ⟨h17, hread⟩ := hin.kind (hnewKind h16)
      rw [resp_eq_of_exec h (exec_validate_control hn h17 hread (kindClass_control.2 hk))]
      rfl
    · obtain ⟨h17, hread⟩ := hin.kind (hnewKind h16)
      rw [resp_eq_of_exec h (exec_validate_unknown hn h17 hread (kindClass_unknown.2 hk))]
      rfl
  · have hplace : covered.length ≤ j := Nat.not_lt.1 hplace
    rw [List.getElem?_append_right hplace] at hb
    rw [List.set_append_right _ _ hplace] at hin
    refine ⟨fun _ => by omega, fun _ => by omega, fun _ => by omega, fun _ => by omega, fun _ => by omega,
      fun _ _ => by omega, fun _ => validate_of_checksum_changed hcov (by omega) hb hin h⟩

end Sys2Proof.Machine
end

section
/-! The end of a command as the host sees it (O15, O17, O38): an idle block rests, polls change nothing and leave the pending command
to complete after them, and an error writes STATUS alone. -/

namespace Sys2Proof.Machine

/-- A live block with no host move before it takes its own step (R54). -/
theorem step_eq_blockStep {s : State} (hm : s.hostMoves = []) (hf : s.faultRecord = none) : step s = blockStep s := by
  simp [step, hm, hf]

/-- With BUSY = 0 the block does nothing (R199). -/
theorem blockStep_of_idle {s : State} (hb : s.busy = false) : blockStep s = .next s := by
  simp [blockStep, hb]

/-- Settles O15: the step is the block's own, and an idle block has none to take. -/
theorem idleBlockRests : Obligations.IdleBlockRests := by
  unfold Obligations.IdleBlockRests
  intro s hb hf hm
  exact (step_eq_blockStep hm hf).trans (blockStep_of_idle hb)

/-! ### Polls -/

theorem State.withMoves_self (s : State) : s.withMoves s.hostMoves = s := rfl

theorem pollsOnly_cons {m : HostMove} {rest : List HostMove} :
    pollsOnly (m :: rest) = true ↔ (m = .read .busy ∨ m = .read .respValid) ∧ pollsOnly rest = true := by
  simp [pollsOnly]

/-- BUSY and RESP_VALID always read (R40, R41), so a poll of a live block takes the move and changes nothing else (R67). -/
theorem step_poll {s : State} {m : HostMove} {rest : List HostMove} (hm : s.hostMoves = m :: rest)
    (hf : s.faultRecord = none) (hpoll : m = .read .busy ∨ m = .read .respValid) : step s = .next (s.withMoves rest) := by
  rcases hpoll with rfl | rfl
  · rw [step_read hm hf, hostRead_busy, readDone_ok]
  · rw [step_read hm hf, hostRead_respValid, readDone_ok]

/-- A live block takes any number of polls in as many steps, and is otherwise as it was. -/
theorem run_polls {s : State} (n : Nat) (hf : s.faultRecord = none) (hpolls : pollsOnly s.hostMoves = true) :
    run (s.hostMoves.length + n) s = run n (s.withMoves []) := by
  induction hm : s.hostMoves generalizing s with
  | nil => rw [← hm, State.withMoves_self, hm, List.length_nil, Nat.zero_add]
  | cons m rest ih =>
    obtain ⟨hpoll, hrest⟩ := pollsOnly_cons.1 (hm ▸ hpolls)
    rw [List.length_cons, Nat.add_right_comm, run_of_step (step_poll hm hf hpoll)]
    exact ih (s := s.withMoves rest) hf hrest rfl

/-- Settles O17: past the polls, the one step left is the pending command's completion. -/
theorem pollingEnds : Obligations.PollingEnds := by
  unfold Obligations.PollingEnds
  intro s c hb hf hc hpolls
  rw [run_polls 1 hf hpolls, run_one]
  exact step_pending (s := s.withMoves []) rfl hf hb hc

/-! ### Errors -/

/-- A response whose STATUS is not OK holds STATUS alone (R55, R190): every other answer of a completion has STATUS = OK. -/
theorem instrResponse_of_status_ne_ok {i : Instr} {c : Config} {r : Request} {p : Response} (h : instrResponse i c r = .ok p)
    (hst : p.status ≠ some statusOk) : ∃ st, p = Response.finish st := by
  rcases instrResponse_ok h with ⟨st, -, -, rfl⟩ | ⟨-, v, rfl⟩ | ⟨-, frame, n, -, -, -, rfl⟩ | ⟨-, frame, -, rfl⟩ |
    ⟨-, k, seq, next, ck, bs, -, -, rfl⟩ | ⟨-, k, id, -, rfl⟩ | ⟨-, k, -, rfl⟩ | ⟨-, v, ok, rfl⟩
  · exact ⟨st, rfl⟩
  all_goals exact absurd rfl hst

/-- Settles O38: the response registers after a completion are its response. -/
theorem errorLeavesOnlyStatus : Obligations.ErrorLeavesOnlyStatus := by
  unfold Obligations.ErrorLeavesOnlyStatus
  intro i s t h hst
  obtain ⟨p, hp, rfl⟩ := exec_eq_next.1 h
  exact instrResponse_of_status_ne_ok hp hst

end Sys2Proof.Machine
end

section
/-! Reset (O4, O5, O6, O51): the step that takes it, from any state, and the state it leaves, in which the block rests until the
host moves again. -/

namespace Sys2Proof.Machine

/-- R210: a reset is taken in any state, BUSY = 1 and a faulted block included. -/
theorem step_reset {s : State} {rest : List HostMove} (hm : s.hostMoves = .reset :: rest) :
    step s = .next (s.withMoves rest).resetEvent := by
  simp [step, hm, hostMove]

/-- R213: power-on is a reset, so a reset at power-on changes nothing. -/
theorem State.reset_resetEvent : State.reset.resetEvent = State.reset := rfl

/-- Settles O4: the power-on state is blank, and a reset of any state leaves those same registers. -/
theorem powerOnState : Obligations.PowerOnState := by
  unfold Obligations.PowerOnState
  rw [← State.reset_resetEvent]
  simp [Request.blank, Response.blank]

/-- Settles O5: the step is the reset event, which blanks both register files and leaves the other fields. -/
theorem resetEventClears : Obligations.ResetEventClears := by
  unfold Obligations.ResetEventClears
  intro s rest hm
  refine ⟨(s.withMoves rest).resetEvent, step_reset hm, ?_⟩
  simp [Request.blank, Response.blank]

/-- Settles O51: the power-on state is the one a reset of it leaves, and its configuration is legal. -/
theorem resetMeetsInvariant : Obligations.ResetMeetsInvariant := by
  unfold Obligations.ResetMeetsInvariant
  refine ⟨?_, fun s hcfg => State.inv_resetEvent hcfg⟩
  rw [← State.reset_resetEvent]
  have hcfg : State.reset.cfg.wf = true := by decide
  exact State.inv_resetEvent hcfg

/-- R199, R212: a live idle block with no host move to come is as it was after any number of steps. -/
theorem run_of_idle {s : State} (hb : s.busy = false) (hf : s.faultRecord = none) (hm : s.hostMoves = []) (n : Nat) :
    run n s = .next s := by
  induction n with
  | zero => exact run_zero s
  | succ n ih => exact (run_of_step (idleBlockRests s hb hf hm)).trans ih

/-- Settles O6: the reset clears BUSY, so no later step has a command to complete. -/
theorem resetAbandonsPending : Obligations.ResetAbandonsPending := by
  unfold Obligations.ResetAbandonsPending
  intro s _ hf hm
  exact ⟨(s.withMoves []).resetEvent, step_reset hm, rfl, rfl, run_of_idle rfl hf rfl⟩

end Sys2Proof.Machine
end
